-- ==== Sys2Proof/Word.lean ====
section
/-! DEFINITION. The word types of the block: every register and cell width the spec names, and nothing else. -/

namespace Sys2Proof

/-- A PackedWord: one cell of `WRD`, `WORD_SIZE` = 64 bits (R5, R22). Bit 0 is the least significant (R11). -/
abbrev Word := BitVec 64

/-- A Value: one cell of `VAL`, `VALUE_WIDTH` = 64 bits, unsigned (R6, R21). -/
abbrev Value := BitVec 64

/-- The contents of the command register `CMD` (R24, R60). -/
abbrev Command := BitVec 42

/-- The block header: the contents of `HDR` (R25, R67). -/
abbrev Header := BitVec 40

/-- The `count` field N of a command or header (R64). -/
abbrev Count := BitVec 32

/-- The `bit_width` field W of a command or header (R63). -/
abbrev BitWidth := BitVec 8

/-- One byte of the serialised header, which only HOST ever sees (R68). -/
abbrev Byte := BitVec 8

end Sys2Proof
end

