-- ==== Sys2Proof/Config.lean ====
section
/-! DEFINITION. What an implementation fixes (the parameter table of spec/00_scope.md) and the free values (U8, U13). -/

namespace Sys2Proof

/-- `WORD_SIZE`, the bits of a PackedWord (R5, decision D1). -/
abbrev Config.wordSize : Nat := 64

/-- `VALUE_WIDTH`, the bits of a Value (R6, decision D2). -/
abbrev Config.valueWidth : Nat := 64

/-- The capacities `CAP_VAL` and `CAP_WRD`, which the spec leaves open as parameters of the model (R9, D4, U6).
`Host.Core` gives a step no parameter but its state, so the state carries them and no step changes them (log entry 3). -/
structure Caps where
  /-- `CAP_VAL`, how many cells `VAL` holds. -/
  val : Nat
  /-- `CAP_WRD`, how many cells `WRD` holds. -/
  wrd : Nat
deriving DecidableEq, Repr

/-- The capacities of the machine right after reset: the largest a command of the encoding can ever need, so that
no command is refused for want of room (DESIGN CHOICE, log entry 3; U6's "model with unbounded memories"). -/
def Caps.largest : Caps := { val := 2 ^ 32 - 1, wrd := 2 ^ 32 - 1 }

/-- What cell `cell` of `VAL` holds before anything has written it since reset `epoch` of unit `unit`: an independent
free draw per cell (U8, R35). No body that Lean could evaluate: nothing can be proved of the value (log entry 2). -/
opaque Config.unspecVal (unit epoch cell : Nat) : Value

/-- What cell `cell` of `WRD` holds before anything has written it since reset `epoch` of unit `unit`: an independent
free draw per cell (U8, R35; log entry 2). -/
opaque Config.unspecWrd (unit epoch cell : Nat) : Word

/-- `WORD_BYTE_ORDER`: which byte of a word (0 the least significant) the surrounding container puts at byte position
`k`. Open (R42, D12, U13) and unobservable inside the block: only HOST's serialisation uses it (log entry 9). -/
opaque Config.wordByteOrder (k : Fin 8) : Fin 8

end Sys2Proof
end

