-- ==== Sys2Proof/Syntax.lean ====
section
/-! DEFINITION. The commands of the block, one constructor per row of the opcode table (R74), and the spec's own
written form of a command (R72, R73). -/

namespace Sys2Proof

/-- A command of format C (R60, R61). Every value of every field is a legal encoding (R70), so the fields have exactly
the widths the encoding gives them. -/
inductive Instr where
  /-- `SELW n`: select the width of `VAL[0 .. n-1]` (R100). `ignored` is the `bit_width` field, which this operation
  ignores (R65); it is kept so that a command is read without loss. -/
  | selw (n : Count) (ignored : BitWidth)
  /-- `PACK w, n` (R110). -/
  | pack (w : BitWidth) (n : Count)
  /-- `UNPACK w, n` (R130). -/
  | unpack (w : BitWidth) (n : Count)
deriving DecidableEq, Repr

/-- The `op` field of a command: which operation it is (R62). -/
def Instr.op : Instr → BitVec 2
  | .selw _ _ => 0
  | .pack _ _ => 1
  | .unpack _ _ => 2

/-- The `count` field of a command (R64). -/
def Instr.count : Instr → Count
  | .selw n _ => n
  | .pack _ n => n
  | .unpack _ n => n

/-- The `bit_width` field of a command (R63), whether or not the operation reads it. -/
def Instr.bitWidth : Instr → BitWidth
  | .selw _ x => x
  | .pack w _ => w
  | .unpack w _ => w

/-- A command as the spec writes it: a mnemonic and decimal operands, width first (R72), with the one
pseudo-operation `PACKA n` (R73). The operands are numbers; `Asm.wellFormed` says which a field can hold. -/
inductive Asm where
  | selw (n : Nat)
  | pack (w n : Nat)
  | unpack (w n : Nat)
  /-- `PACKA n`, "pack, automatic width": no command of its own, two commands that HOST issues (R73, R150). -/
  | packa (n : Nat)
deriving DecidableEq, Repr

end Sys2Proof
end

