-- ==== Sys2Proof/WellFormed.lean ====
section
/-! DEFINITION. The checks: operands that a command's fields can hold, and capacities the spec admits. -/

namespace Sys2Proof

/-- Is N a number that the 32-bit `count` field holds (R8, R64)? -/
def countFits (n : Nat) : Bool := n < 2 ^ 32

/-- Is W a number that the 8-bit `bit_width` field holds (R63)? Whether it is a LEGAL width (at most 64) is the
command's own check when it runs, not a matter of form: 65 .. 255 "executes and raises" (R70). -/
def widthFits (w : Nat) : Bool := w < 2 ^ 8

/-- A written command is well formed when its operands fit their fields (R63, R64, R72). -/
def Asm.wellFormed : Asm → Bool
  | .selw n => countFits n
  | .pack w n => widthFits w && countFits n
  | .unpack w n => widthFits w && countFits n
  | .packa n => countFits n

/-- Every term of `Instr` is a legal encoding: R70 gives all values of both fields to each of the three operations, and
the fields' types have the encoding's widths. There is nothing left to refuse. -/
def Instr.wellFormed : Instr → Bool
  | .selw _ _ => true
  | .pack _ _ => true
  | .unpack _ _ => true

/-- The capacities the spec admits: `1 <= CAP_VAL <= 2^32 - 1` and `CAP_WRD >= 1` (R9). -/
def Caps.wellFormed (c : Caps) : Bool := 1 ≤ c.val && c.val ≤ 2 ^ 32 - 1 && 1 ≤ c.wrd

/-- The constraint between the two widths that the two-word straddle needs (R7, U17). -/
def Config.widthsWellFormed (valueWidth wordSize : Nat) : Bool := valueWidth ≤ wordSize

end Sys2Proof
end

