-- ==== Sys2Proof/Decode.lean ====
section
/-! DEFINITION. The command descriptor (R60 to R66), its decoder and its encoder, the opcode map (R74), the written form's
assembly (R72), and the block header with its serialised form (R67, R68). -/

namespace Sys2Proof

/-- Why a command value is no command. -/
inductive DecodeError where
  /-- `op = 3`, the one reserved value (R70, D17, U5). -/
  | reservedOp
deriving DecidableEq, Repr

/-- `CMD.op = CMD[41:40]` (R24, R61). -/
def cmdOp (c : Command) : BitVec 2 := c.extractLsb' 40 2

/-- `CMD.count = CMD[39:8]` (R24, R61). -/
def cmdCount (c : Command) : Count := c.extractLsb' 8 32

/-- `CMD.bit_width = CMD[7:0]` (R24, R61). -/
def cmdWidth (c : Command) : BitWidth := c.extractLsb' 0 8

/-- The command a value of `CMD` stands for (R62, R70, R74): total, and only `op = 3` is rejected, by name. -/
def decode (c : Command) : Except DecodeError Instr :=
  match (cmdOp c).toNat with
  | 0 => .ok (.selw (cmdCount c) (cmdWidth c))
  | 1 => .ok (.pack (cmdWidth c) (cmdCount c))
  | 2 => .ok (.unpack (cmdWidth c) (cmdCount c))
  | _ => .error .reservedOp

/-- The word of a command, written from format C (R61): `op` high, then `count`, then `bit_width`. -/
def encode (i : Instr) : Command := i.op ++ i.count ++ i.bitWidth

/-- One row of the opcode map (R74): a command decodes to the row for which `CMD & mask = match`. -/
structure OpcodeRow where
  mnemonic : String
  pattern : Command
  mask : Command
deriving DecidableEq, Repr

/-- The opcode map's row of each operation (R74). -/
def Instr.row : Instr → OpcodeRow
  | .selw _ _ => { mnemonic := "SELW", pattern := 0x00000000000, mask := 0x30000000000 }
  | .pack _ _ => { mnemonic := "PACK", pattern := 0x10000000000, mask := 0x30000000000 }
  | .unpack _ _ => { mnemonic := "UNPACK", pattern := 0x20000000000, mask := 0x30000000000 }

/-- The commands a written form stands for when nothing has to be decided at run time (R72): `SELW n` has the
`bit_width` field 0 (R150's expansion); `PACKA` is no command (R73; see `Sys2Proof.Machine.packa`); operands that do not
fit their fields name no command. -/
def Asm.assemble (a : Asm) : Option Instr :=
  if a.wellFormed then
    match a with
    | .selw n => some (.selw (BitVec.ofNat 32 n) 0)
    | .pack w n => some (.pack (BitVec.ofNat 8 w) (BitVec.ofNat 32 n))
    | .unpack w n => some (.unpack (BitVec.ofNat 8 w) (BitVec.ofNat 32 n))
    | .packa _ => none
  else none

/-- The block header `HDR = count * 2^8 + bit_width` (R67). -/
def headerOf (w : BitWidth) (n : Count) : Header := n ++ w

/-- `HDR.bit_width = HDR[7:0]` (R25, R67). -/
def headerWidth (h : Header) : BitWidth := h.extractLsb' 0 8

/-- `HDR.count = HDR[39:8]` (R25, R67). -/
def headerCount (h : Header) : Count := h.extractLsb' 8 32

/-- A stored header copied into `CMD[39:0]` below an `op` (R61). -/
def commandOfHeader (op : BitVec 2) (h : Header) : Command := op ++ h

/-- The header as HOST stores or sends it: byte 0 is `bit_width`, bytes 1 to 4 are `count`, least significant byte
first (R68). -/
def headerBytes (h : Header) : List Byte :=
  [headerWidth h, (headerCount h).extractLsb' 0 8, (headerCount h).extractLsb' 8 8,
   (headerCount h).extractLsb' 16 8, (headerCount h).extractLsb' 24 8]

/-- The header that five serialised bytes stand for (R68); any other number of bytes is no header. -/
def headerOfBytes : List Byte → Option Header
  | [b0, b1, b2, b3, b4] => some (headerOf b0 (b4 ++ b3 ++ b2 ++ b1))
  | _ => none

/-- The bytes of one packed word in the container outside the block, in its open byte order (R42, D12). -/
def wordBytes (x : Word) : List Byte :=
  (List.finRange 8).map fun k => x.extractLsb' (8 * (Config.wordByteOrder k).val) 8

/-- The host's view of the decoder: the command whose bits are `w`, numbered as the opcode table numbers them. The
table's 42 bits fill 48; a number with a bit at or above 42 is no value of `CMD`. -/
def decodeTableWord (_nbits w : Nat) : Option Instr :=
  if w < 2 ^ 42 then
    match decode (BitVec.ofNat 42 w) with
    | .ok i => some i
    | .error _ => none
  else none

end Sys2Proof
end

