-- ==== Sys2Proof/Machine/State.lean ====
section
/-! DEFINITION. The machine's state as plain data: the seven elements of R20, the parameters a step carries, and the
model's own marks; the named errors, faults and refusals; the state right after reset. -/

namespace Sys2Proof.Machine

/-- One of the two cell-addressed memories (R40): the cells written since reset, as (index, contents) pairs, indices
strictly rising (`Memory.wf`). A cell that is not listed has not been written since reset. Cells are 64 bits, the
block's smallest addressable unit: neither memory is byte-addressed and no byte order exists inside (R40, R42; log
entry 1). -/
abbrev Memory := List (Nat × Word)

/-- The typed errors (R160). -/
inductive Err where
  /-- A value to be packed does not fit in the declared width (R112). -/
  | bitWidthOverflow
  /-- The supplied word count does not match (R132). -/
  | malformedBuffer
  /-- W outside 0 .. 64 (R111, R131). -/
  | invalidWidth
  /-- The empty block given to SELW (R101). -/
  | invalidInput
deriving DecidableEq, Repr

/-- Everything one instance holds. -/
structure State where
  /-- `CMD`, the command register (R24). -/
  cmd : Command
  /-- `VAL`, the value memory (R21). -/
  val : Memory
  /-- `WRD`, the packed-word memory (R22). -/
  wrd : Memory
  /-- `WLEN`, the number of valid words in `WRD` (R23). -/
  wlen : BitVec 32
  /-- `HDR`, the block header (R25). -/
  hdr : Header
  /-- `WRES`, the width SELW selected (R26). -/
  wres : BitVec 8
  /-- `STATUS`, the outcome of the most recent command (R27). -/
  status : BitVec 3
  /-- The model's own: HOST has written `CMD` and ENGINE has not yet run it (R10, R24, R35 "command pending"; log
  entry 4). -/
  pending : Bool
  /-- `CAP_VAL` and `CAP_WRD`, parameters of the step (R9, R28; log entry 3). -/
  caps : Caps
  /-- The model's own: which unit this is, so that the unwritten cells of two units are independent draws (U8, R180; log
  entry 2). -/
  drawUnit : Nat
  /-- The model's own: how many resets this unit has had, so that every reset draws afresh (U8, R35; log entry 2). -/
  drawEpoch : Nat
deriving DecidableEq, Repr

/-- Why the machine stops with a fault. No command faults: an error is a normal completion with a non-zero `STATUS`
(R172). -/
inductive Fault where
  /-- HOST accesses a cell of `VAL` at or beyond `CAP_VAL`, which does not exist (R21, R40). Raised by `hostAct`. Safe. -/
  | noValCell (i : Nat)
  /-- HOST accesses a cell of `WRD` at or beyond `CAP_WRD`, which does not exist (R22, R40). Raised by `hostAct`. Safe. -/
  | noWrdCell (j : Nat)
deriving DecidableEq, Repr

/-- Why the model gives no meaning. -/
inductive Refusal where
  /-- An instruction of the table without a meaning yet. Raised by no arm. Safe. -/
  | notModelled (mnemonic : String)
  /-- `CMD.op = 3`, to which the spec gives no meaning: "a model must refuse" (R70, U5). Raised by `step`. Safe. -/
  | reservedOp
  /-- The command's N exceeds `CAP_VAL` (R9, R52, U6). Raised by the three meanings. Safe. -/
  | capacityVal
  /-- The command's word count exceeds `CAP_WRD` (R9, R52, U6). Raised by PACK and UNPACK. Safe. -/
  | capacityWrd
  /-- HOST touches an element between writing `CMD` and the write of `STATUS`: the model has no move (R34, R193 c, U9).
  Raised by `hostAct`. Safe for the block, an assumption about HOST (log entry 5). -/
  | engineOwns
deriving DecidableEq, Repr

/-- The machine right after reset (R35, R190): `WLEN`, `HDR`, `WRES` and `STATUS` are 0, no command is pending, no cell
of either memory has been written. `CMD`'s contents, which the spec leaves unspecified, are 0 (DESIGN CHOICE, log
entry 6); the capacities are the largest (DESIGN CHOICE, log entry 3); unit 0, epoch 0 (log entry 2). -/
def State.reset : State where
  cmd := 0
  val := []
  wrd := []
  wlen := 0
  hdr := 0
  wres := 0
  status := 0
  pending := false
  caps := Caps.largest
  drawUnit := 0
  drawEpoch := 0

end Sys2Proof.Machine
end

