-- ==== Sys2Proof/Machine/Flags.lean ====
section
/-! DEFINITION. What a command leaves as its only status: the block has no condition codes (R30), so this is the code of
`STATUS` (R27, R160) and the check that decides `BitWidthOverflow` of one value (R85). -/

namespace Sys2Proof.Machine

/-- The code of success (R27, R160). -/
def statusOk : BitVec 3 := 0

/-- The code each error leaves in `STATUS` (R27, R160, decision D8). -/
def Err.code : Err → BitVec 3
  | .bitWidthOverflow => 1
  | .malformedBuffer => 2
  | .invalidWidth => 3
  | .invalidInput => 4

/-- Is W outside the legal range 0 .. `VALUE_WIDTH` (R63, R111, R131)? -/
def widthIllegal (w : Nat) : Bool := Config.valueWidth < w

/-- `fits(v, W)` (R85): the full native range at `W = VALUE_WIDTH`, by a branch of its own, and `v < 2^W` below it. -/
def fits (v : Value) (w : Nat) : Bool :=
  if w = Config.valueWidth then true else v.toNat < 2 ^ w

end Sys2Proof.Machine
end

