-- ==== Sys2Proof/Machine/Operands.lean ====
section
/-! DEFINITION. The arithmetic the three operations share (spec/40_common_arithmetic.md) and the one addressing mode of the
block, the effective address of a value's field (R44, R46). Numbers are exact naturals, so no product or cursor wraps
(R84, R91). -/

namespace Sys2Proof.Machine

/-- `bit_length(v)` in integer arithmetic: 0 for 0, else `floor(log2(v)) + 1` (R80, R81). -/
def bitLength (v : Value) : Nat :=
  if v = 0 then 0 else Nat.log2 v.toNat + 1

/-- `ceil_div(a, b) = (a + b - 1) / b` (R82). -/
def ceilDiv (a b : Nat) : Nat := (a + b - 1) / b

/-- The word count of a block, `wc(N, W) = ceil_div(N * W, WORD_SIZE)` (R82). -/
def wordCount (n w : Nat) : Nat := ceilDiv (n * w) Config.wordSize

/-- `bit_cursor = i * W` (R44). -/
def bitCursor (i w : Nat) : Nat := i * w

/-- `word_index = bit_cursor / WORD_SIZE` (R44). -/
def wordIndex (i w : Nat) : Nat := bitCursor i w / Config.wordSize

/-- `bit_offset = bit_cursor % WORD_SIZE` (R44). -/
def bitOffset (i w : Nat) : Nat := bitCursor i w % Config.wordSize

/-- Value `i` straddles if and only if `bit_offset + W > WORD_SIZE` (R46). -/
def straddles (i w : Nat) : Bool := Config.wordSize < bitOffset i w + w

/-- The low part of a value in its first word: `(v << bit_offset) mod 2^WORD_SIZE` (R86). -/
def loPart (v : Value) (off : Nat) : Word := v <<< off

/-- The high part of a straddling value in its second word: `v >> (WORD_SIZE - bit_offset)` (R87). -/
def hiPart (v : Value) (off : Nat) : Word := v >>> (Config.wordSize - off)

/-- `mask(W)`: all bits set at `W = WORD_SIZE` by a branch of its own, `2^W - 1` below it (R89). -/
def mask (w : Nat) : Word :=
  if w = Config.wordSize then BitVec.allOnes 64 else BitVec.ofNat 64 (2 ^ w - 1)

end Sys2Proof.Machine
end

