-- ==== Sys2Proof/Machine/Ops.lean ====
section
/-! DEFINITION. The named operations over memories and registers, an error's entry and a command's completion (R165, R168), and
a command's issue and end (R10, R24). -/

namespace Sys2Proof.Machine

/-- The canonical form of a memory: indices strictly rising, so that equal memories are equal data. -/
abbrev Memory.wf (m : Memory) : Prop := List.Pairwise (fun p q => p.1 < q.1) m

/-- What has been written to cell `i` since reset, if anything has. -/
def Memory.read? : Memory → Nat → Option Word
  | [], _ => none
  | (a, x) :: m, i => if a = i then some x else Memory.read? m i

/-- Write one whole cell (R12, R45), keeping the indices strictly rising. -/
def Memory.write : Memory → Nat → Word → Memory
  | [], i, v => [(i, v)]
  | (a, x) :: m, i, v =>
    if i < a then (i, v) :: (a, x) :: m
    else if i = a then (i, v) :: m
    else (a, x) :: Memory.write m i v

/-- `MemRead(VAL, i)`: what was last written there, else that cell's free draw (R12, R35, U8). -/
def State.readVal (s : State) (i : Nat) : Value :=
  (s.val.read? i).getD (Config.unspecVal s.drawUnit s.drawEpoch i)

/-- `MemRead(WRD, j)`: what was last written there, else that cell's free draw (R12, R35, U8). -/
def State.readWrd (s : State) (j : Nat) : Word :=
  (s.wrd.read? j).getD (Config.unspecWrd s.drawUnit s.drawEpoch j)

/-- `MemWrite(VAL, i, v)` (R12). -/
def State.writeVal (s : State) (i : Nat) (v : Value) : State := { s with val := s.val.write i v }

/-- `MemWrite(WRD, j, v)` (R12). -/
def State.writeWrd (s : State) (j : Nat) (v : Word) : State := { s with wrd := s.wrd.write j v }

/-- `WLEN <- k` (R23). -/
def State.setWlen (s : State) (k : BitVec 32) : State := { s with wlen := k }

/-- `HDR <- h` (R25). -/
def State.setHdr (s : State) (h : Header) : State := { s with hdr := h }

/-- `WRES <- r` (R26). -/
def State.setWres (s : State) (r : BitVec 8) : State := { s with wres := r }

/-- `STATUS <- c` (R27). -/
def State.setStatus (s : State) (c : BitVec 3) : State := { s with status := c }

/-- `raise E`: the command ends with `STATUS <- code(E)` and no other element changes; control goes nowhere (R12,
R165). -/
def raise (e : Err) (s : State) : State := s.setStatus e.code

/-- A command's success: `STATUS <- 0`. There is no return from an error and nothing to restore: after either the block
is ready for the next command (R27, R168). -/
def complete (s : State) : State := s.setStatus statusOk

/-- HOST writes `CMD`, which issues a command (R24). -/
def State.issue (s : State) (c : Command) : State := { s with cmd := c, pending := true }

/-- The command is over: `CMD` still holds it (R165) and none is pending. -/
def State.retire (s : State) : State := { s with pending := false }

/-- The command ENGINE is to run, read from `CMD`; the block fetches from no memory (R29, R57). -/
def fetch (s : State) : Except DecodeError Instr := decode s.cmd

/-- The reset event (R190): the state of R35 with the same parameters, and fresh draws for every cell (U8). -/
def State.resetAgain (s : State) : State :=
  { State.reset with caps := s.caps, drawUnit := s.drawUnit, drawEpoch := s.drawEpoch + 1 }

end Sys2Proof.Machine
end

