-- ==== Sys2Proof/Machine/Pack.lean ====
section
/-! DEFINITION. The pack path: PACK (R110 to R121), by the loop of R110. -/

namespace Sys2Proof.Machine

/-- Does every one of `VAL[0] .. VAL[n-1]` fit in `w` bits (R112)? True of no values (R120). -/
def allFit (s : State) (w : Nat) : Nat → Bool
  | 0 => true
  | k + 1 => allFit s w k && fits (s.readVal k) w

/-- Write 0 to `WRD[0] .. WRD[k-1]`, before any OR (R114). -/
def zeroWords : Nat → State → State
  | 0, s => s
  | k + 1, s => (zeroWords k s).writeWrd k 0

/-- OR `x` into word `j` of `WRD` (R113). -/
def orWord (j : Nat) (x : Word) (s : State) : State := s.writeWrd j (s.readWrd j ||| x)

/-- The per-value step of PACK (R113): the low part into the value's first word, and, if and only if it straddles, the
high part into the next. -/
def packValue (w i : Nat) (s : State) : State :=
  let first := orWord (wordIndex i w) (loPart (s.readVal i) (bitOffset i w)) s
  if straddles i w then
    orWord (wordIndex i w + 1) (hiPart (s.readVal i) (bitOffset i w)) first
  else first

/-- The per-value step for the values 0 .. k-1, ascending (R113). -/
def packValues (w : Nat) : Nat → State → State
  | 0, s => s
  | k + 1, s => packValue w k (packValues w k s)

/-- The words PACK leaves: zeroed, then every value OR-ed in, but for `W = 0`, which has none (R110, R118). -/
def packWords (w n : Nat) (s : State) : State :=
  if w = 0 then zeroWords (wordCount n w) s
  else packValues w n (zeroWords (wordCount n w) s)

/-- PACK (R110). A command that exceeds a capacity is refused and raises nothing (R9, R52, R193 g, U6): its count before
any check, its word count as soon as the width is known to be legal, since only then has it one (R131; log entry 7). The
errors of the others come in the order of R110 and R167. -/
def execPack (w : BitWidth) (n : Count) (s : State) : Host.Outcome State Fault Refusal :=
  if s.caps.val < n.toNat then .refused .capacityVal
  else if widthIllegal w.toNat then .next (raise .invalidWidth s)
  else if s.caps.wrd < wordCount n.toNat w.toNat then .refused .capacityWrd
  else if allFit s w.toNat n.toNat = false then .next (raise .bitWidthOverflow s)
  else .next (complete (((packWords w.toNat n.toNat s).setWlen
    (BitVec.ofNat 32 (wordCount n.toNat w.toNat))).setHdr (headerOf w n)))

end Sys2Proof.Machine
end

