-- ==== Sys2Proof/Machine/Selw.lean ====
section
/-! DEFINITION. WidthSelector: SELW (R100 to R104). -/

namespace Sys2Proof.Machine

/-- The unsigned maximum of `VAL[0] .. VAL[n-1]`, as R100's loop finds it: 0 before the first value (R92, R100). -/
def blockMax (s : State) : Nat → Value
  | 0 => 0
  | k + 1 => if blockMax s k < s.readVal k then s.readVal k else blockMax s k

/-- SELW (R100): a count beyond `CAP_VAL` is refused (R9, U6); an empty block raises `InvalidInput` (R101); otherwise
`WRES` gets the bit length of the block's maximum. The `bit_width` field is ignored (R65), so SELW has no word count. -/
def execSelw (n : Count) (_ignored : BitWidth) (s : State) : Host.Outcome State Fault Refusal :=
  if s.caps.val < n.toNat then .refused .capacityVal
  else if n.toNat = 0 then .next (raise .invalidInput s)
  else .next (complete (s.setWres (BitVec.ofNat 8 (bitLength (blockMax s n.toNat)))))

end Sys2Proof.Machine
end

