-- ==== Sys2Proof/Machine/Unpack.lean ====
section
/-! DEFINITION. The unpack path: UNPACK (R130 to R141), by the loop of R130. -/

namespace Sys2Proof.Machine

/-- The bits a straddling value has in the next word, moved above those it has in its first (R133): a 64-bit shift,
which drops what leaves the word. -/
def nextPart (x : Word) (off : Nat) : Word := x <<< (Config.wordSize - off)

/-- The field of value `i` before masking (R133). -/
def fieldBits (s : State) (w i : Nat) : Word :=
  if straddles i w then
    (s.readWrd (wordIndex i w) >>> bitOffset i w) ||| nextPart (s.readWrd (wordIndex i w + 1)) (bitOffset i w)
  else s.readWrd (wordIndex i w) >>> bitOffset i w

/-- Value `i` as UNPACK reconstructs it: 0 without reading a word at `W = 0` (R136), no mask at `W = WORD_SIZE`, else the
low W bits (R134). -/
def unpackValue (s : State) (w i : Nat) : Value :=
  if w = 0 then 0
  else if w = Config.wordSize then fieldBits s w i
  else fieldBits s w i &&& mask w

/-- Write the values 0 .. k-1, ascending (R130). -/
def unpackValues (w : Nat) : Nat → State → State
  | 0, s => s
  | k + 1, s => (unpackValues w k s).writeVal k (unpackValue (unpackValues w k s) w k)

/-- UNPACK (R130). A command that exceeds a capacity is refused and raises nothing (R9, R52, R193 g, U6): its count before
any check, its word count as soon as the width is known to be legal, since only then has it one (R131; log entry 7). The
errors of the others come in the order of R130 and R167. -/
def execUnpack (w : BitWidth) (n : Count) (s : State) : Host.Outcome State Fault Refusal :=
  if s.caps.val < n.toNat then .refused .capacityVal
  else if widthIllegal w.toNat then .next (raise .invalidWidth s)
  else if s.caps.wrd < wordCount n.toNat w.toNat then .refused .capacityWrd
  else if s.wlen.toNat ≠ wordCount n.toNat w.toNat then .next (raise .malformedBuffer s)
  else .next (complete (unpackValues w.toNat n.toNat s))

end Sys2Proof.Machine
end

