-- ==== Sys2Proof/Machine/Dispatch.lean ====
section
/-! DEFINITION. One arm per command: the meaning of each. -/

namespace Sys2Proof.Machine

def exec (i : Instr) (s : State) : Host.Outcome State Fault Refusal :=
  match i with
  | .selw n ignored => Sys2Proof.Machine.execSelw n ignored s
  | .pack w n => Sys2Proof.Machine.execPack w n s
  | .unpack w n => Sys2Proof.Machine.execUnpack w n s

end Sys2Proof.Machine
end

