-- ==== Sys2Proof/Machine/Step.lean ====
section
/-! DEFINITION. One step of ENGINE: the one pending command, whole and indivisible (R10, R51). -/

namespace Sys2Proof.Machine

/-- One ENGINE step. With no command pending ENGINE executes nothing (R35) and the state stands; with one, the command in
`CMD` runs and is then no longer pending. `op = 3` is refused (R70). -/
def step (s : State) : Host.Outcome State Fault Refusal :=
  if s.pending then
    match fetch s with
    | .error .reservedOp => .refused .reservedOp
    | .ok i =>
      match exec i s with
      | .next t => .next t.retire
      | .fault r => .fault r
      | .refused r => .refused r
  else .next s

/-- `s` with the command whose bits are `w` issued, so that the very next step runs it: the block has no program counter
and fetches from no memory; its one command stands in `CMD` (R29, R57; log entry 8). -/
def State.withFetchWord (s : State) (_nbits w : Nat) : State := s.issue (BitVec.ofNat 42 w)

end Sys2Proof.Machine
end

