-- ==== Sys2Proof/Machine/HostSide.lean ====
section
/-! DEFINITION. The other agent: what HOST can do to an instance (R34, R200), the pseudo-operation PACKA (R150), runs (R201),
and several instances side by side (R180). -/

namespace Sys2Proof.Machine

/-- An element HOST can read (R20, R34, R200). -/
inductive Element where
  | cmd
  | val (i : Nat)
  | wrd (j : Nat)
  | wlen
  | hdr
  | wres
  | status
deriving DecidableEq, Repr

/-- One action of HOST (R200, R201). Between commands HOST may read and write every element (R34); a write of `CMD` is
the issue of a command. -/
inductive HostAction where
  | writeVal (i : Nat) (v : Value)
  | writeWrd (j : Nat) (x : Word)
  | writeWlen (k : BitVec 32)
  | writeHdr (h : Header)
  | writeWres (r : BitVec 8)
  | writeStatus (c : BitVec 3)
  | issue (c : Command)
  | read (e : Element)
  | reset
deriving DecidableEq, Repr

/-- What HOST reads of an element, as a number (R34, R200). A cell beyond the memory's end does not exist (R40). -/
def hostRead (e : Element) (s : State) : Host.Outcome Nat Fault Refusal :=
  match e with
  | .cmd => .next s.cmd.toNat
  | .val i => if i < s.caps.val then .next (s.readVal i).toNat else .fault (.noValCell i)
  | .wrd j => if j < s.caps.wrd then .next (s.readWrd j).toNat else .fault (.noWrdCell j)
  | .wlen => .next s.wlen.toNat
  | .hdr => .next s.hdr.toNat
  | .wres => .next s.wres.toNat
  | .status => .next s.status.toNat

/-- One action of HOST on an instance. An issue is the write of `CMD` and the one ENGINE step it causes, indivisible
(R51, R200). While a command is pending ENGINE owns every element and HOST has no move (R34, U9). -/
def hostAct (a : HostAction) (s : State) : Host.Outcome State Fault Refusal :=
  if s.pending then .refused .engineOwns
  else
    match a with
    | .writeVal i v => if i < s.caps.val then .next (s.writeVal i v) else .fault (.noValCell i)
    | .writeWrd j x => if j < s.caps.wrd then .next (s.writeWrd j x) else .fault (.noWrdCell j)
    | .writeWlen k => .next (s.setWlen k)
    | .writeHdr h => .next (s.setHdr h)
    | .writeWres r => .next (s.setWres r)
    | .writeStatus c => .next (s.setStatus c)
    | .issue c => step (s.issue c)
    | .read e =>
      match hostRead e s with
      | .next _ => .next s
      | .fault r => .fault r
      | .refused r => .refused r
    | .reset => .next s.resetAgain

/-- A run on one instance: HOST's actions one after another (R201). R201 does not speak of an action that is refused or
faults: DESIGN CHOICE (log entry 14), the run ends there with that stop. -/
def hostRun : List HostAction → State → Host.Outcome State Fault Refusal
  | [], s => .next s
  | a :: rest, s =>
    match hostAct a s with
    | .next t => hostRun rest t
    | .fault r => .fault r
    | .refused r => .refused r

/-- `VAL <- [v0, v1, ...]`, the HOST writes that set up a block (R72), from cell `at_` on. -/
def loadVal : Nat → List Value → List HostAction
  | _, [] => []
  | at_, v :: vs => .writeVal at_ v :: loadVal (at_ + 1) vs

/-- `WRD <- [w0, w1, ...]`, the HOST writes that set up a buffer (R72), from cell `at_` on. -/
def loadWrd : Nat → List Word → List HostAction
  | _, [] => []
  | at_, x :: xs => .writeWrd at_ x :: loadWrd (at_ + 1) xs

/-- `PACKA n` (R73, R150): `SELW n`; if `STATUS` is OK, `PACK WRES, n`. A command that is refused ends it with that
refusal (DESIGN CHOICE, log entry 14). -/
def packa (n : Count) (s : State) : Host.Outcome State Fault Refusal :=
  match hostAct (.issue (encode (.selw n 0))) s with
  | .next t =>
    if t.status = statusOk then hostAct (.issue (encode (.pack t.wres n))) t else .next t
  | .fault r => .fault r
  | .refused r => .refused r

/-- Several instances, each with a complete state of its own (R180). -/
abbrev System (k : Nat) := Vector State k

/-- `k` instances right after reset; the unwritten cells of different instances are independent draws (U8; log entry
2). -/
def System.reset (k : Nat) : System k := Vector.ofFn fun u => { State.reset with drawUnit := u.val }

/-- One action of HOST on instance `u` of a system (R180, R201): a step of that instance alone. An action that is refused
or faults stops the system's action with the same reason (DESIGN CHOICE, log entry 14). -/
def System.act {k : Nat} (u : Fin k) (a : HostAction) (sys : System k) : Host.Outcome (System k) Fault Refusal :=
  match hostAct a (sys.get u) with
  | .next t => .next (sys.set u.val t u.isLt)
  | .fault r => .fault r
  | .refused r => .refused r

/-- A run on a system: a finite sequence of HOST actions, each on one instance (R201). What a refused or faulting action of
one instance does to the others is open (R180, R201 are silent): DESIGN CHOICE (log entry 14), the whole system's run ends
there with that stop, and no later action of any instance is performed. -/
def System.run {k : Nat} : List (Fin k × HostAction) → System k → Host.Outcome (System k) Fault Refusal
  | [], sys => .next sys
  | (u, a) :: rest, sys =>
    match System.act u a sys with
    | .next t => System.run rest t
    | .fault r => .fault r
    | .refused r => .refused r

end Sys2Proof.Machine
end

