-- ==== Sys2Proof/Safety.lean ====
section
/-! DEFINITION. What counts as a good state and a safe step, in the terms the claims use. -/

namespace Sys2Proof.Machine

/-- A good state: the capacities are ones the spec admits (R9), both memories have their canonical form, and no cell
beyond a memory's end is listed (R21, R22, R40). -/
abbrev State.Inv (s : State) : Prop :=
  s.caps.wellFormed = true ∧ s.val.wf ∧ s.wrd.wf ∧ (∀ p ∈ s.val, p.1 < s.caps.val) ∧ (∀ p ∈ s.wrd, p.1 < s.caps.wrd)

/-- The cells of `VAL` and the words of `WRD` that a command of count `n` and width `w` uses exist (R9, R52). -/
abbrev State.HasRoom (s : State) (n w : Nat) : Prop := n ≤ s.caps.val ∧ wordCount n w ≤ s.caps.wrd

/-- The step goes on: it neither faults nor is refused. -/
abbrev GoesOn (o : Host.Outcome State Fault Refusal) : Prop := ∃ t, o = .next t

/-- `S`, the block `VAL[0 .. n-1]` packed at `w` bits a value, as one number: the sum of `VAL[i] * 2^(i*w)` (R115). -/
def blockNumber (s : State) (w : Nat) : Nat → Nat
  | 0 => 0
  | k + 1 => blockNumber s w k + (s.readVal k).toNat * 2 ^ (k * w)

/-- `S`, the words `WRD[0 .. k-1]` as one number: the sum of `WRD[j] * 2^(64*j)` (R41, R135). -/
def bufferNumber (s : State) : Nat → Nat
  | 0 => 0
  | k + 1 => bufferNumber s k + (s.readWrd k).toNat * 2 ^ (Config.wordSize * k)

/-- The bit at global position `p` of the packed buffer: bit `p % WORD_SIZE` of word `p / WORD_SIZE` (R41). -/
def bufferBit (s : State) (p : Nat) : Bool :=
  (s.readWrd (p / Config.wordSize)).getLsbD (p % Config.wordSize)

end Sys2Proof.Machine
end

