-- ==== Sys2Proof/Certificates/Slice0/Obligations.lean ====
section
/-! DEFINITION. The statements for the provers: what the commands, the machine and HOST do, from the numbered rules of spec/. Every
statement is about every state, so none leans on a value the model chose (the capacities and the draw marks at reset, the
contents of a cell never written). -/

open Sys2Proof
open Sys2Proof.Machine

/-! ## Encoding (spec/30_encoding.md) -/

/-- Decoding the word of any command gives the command back, with every value of every field. -/
def Obligations.DecodeOfEncode : Prop :=
  ∀ i : Instr, i.wellFormed = true → decode (encode i) = .ok i

/-- The word a command was read from is the word it is written as: no bit of `CMD` is dropped, the ignored field of SELW
among them. -/
def Obligations.EncodeOfDecoded : Prop :=
  ∀ (c : Command) (i : Instr), decode c = .ok i → encode i = c

/-- R61: the three fields of format C as a number, and the low 40 bits of a command are a header's. -/
def Obligations.CommandIsItsThreeFields : Prop :=
  (∀ c : Command, c.toNat = (cmdOp c).toNat * 2 ^ 40 + (cmdCount c).toNat * 2 ^ 8 + (cmdWidth c).toNat) ∧
  (∀ i : Instr, (encode i).toNat = i.op.toNat * 2 ^ 40 + i.count.toNat * 2 ^ 8 + i.bitWidth.toNat) ∧
  (∀ (op : BitVec 2) (h : Header),
    cmdOp (commandOfHeader op h) = op ∧ cmdCount (commandOfHeader op h) = headerCount h ∧
    cmdWidth (commandOfHeader op h) = headerWidth h ∧ (commandOfHeader op h).setWidth 40 = h)

/-- R74: a command decodes to the row for which `CMD & mask = match`; the rows and the reserved row are disjoint and
exhaustive. -/
def Obligations.OpcodeMapDecodes : Prop :=
  (∀ (c : Command) (i : Instr), decode c = .ok i → c &&& i.row.mask = i.row.pattern) ∧
  (∀ c : Command,
    (c &&& 0x30000000000 = 0x00000000000 ↔ ∃ n x, decode c = .ok (.selw n x)) ∧
    (c &&& 0x30000000000 = 0x10000000000 ↔ ∃ w n, decode c = .ok (.pack w n)) ∧
    (c &&& 0x30000000000 = 0x20000000000 ↔ ∃ w n, decode c = .ok (.unpack w n)) ∧
    (c &&& 0x30000000000 = 0x30000000000 ↔ decode c = .error .reservedOp))

/-- R70: the partition of the `2^42` command values, as the machine runs them. `op = 3` is refused; `SELW 0` and the
widths 65 .. 255 are legal encodings that execute to their errors, at every count the capacity admits (a larger one is
refused: NoCellBeyondTheCapacity). -/
def Obligations.EveryCommandValueHasItsPlace : Prop :=
  ∀ s : State, s.pending = true →
    (cmdOp s.cmd = 0 → decode s.cmd = .ok (.selw (cmdCount s.cmd) (cmdWidth s.cmd)) ∧
      (cmdCount s.cmd = 0 → step s = .next { s with status := 4, pending := false })) ∧
    (cmdOp s.cmd = 1 → decode s.cmd = .ok (.pack (cmdWidth s.cmd) (cmdCount s.cmd)) ∧
      ((cmdCount s.cmd).toNat ≤ s.caps.val → 65 ≤ (cmdWidth s.cmd).toNat →
        step s = .next { s with status := 3, pending := false })) ∧
    (cmdOp s.cmd = 2 → decode s.cmd = .ok (.unpack (cmdWidth s.cmd) (cmdCount s.cmd)) ∧
      ((cmdCount s.cmd).toNat ≤ s.caps.val → 65 ≤ (cmdWidth s.cmd).toNat →
        step s = .next { s with status := 3, pending := false })) ∧
    (cmdOp s.cmd = 3 → step s = .refused .reservedOp)

/-- A few words written out bit by bit from format C decode to the commands they stand for, and six commands encode to the
words the spec works out for them (the worked encodings under the opcode map, the spec's own derivation from the format). -/
def Obligations.WrittenOutWordsDecode : Prop :=
  decode 0b00_00000000000000000000000000001000_00000000 = .ok (.selw 8 0) ∧
  decode 0b01_00000000000000000000000000001101_00000101 = .ok (.pack 5 13) ∧
  decode 0b10_11111111111111111111111111111111_00000100 = .ok (.unpack 4 4294967295) ∧
  decode 0b01_00000000000000000000000000000001_11111111 = .ok (.pack 255 1) ∧
  decode 0b11_00000000000000000000000000000000_00000000 = .error .reservedOp ∧
  encode (.selw 8 0) = 0x00000000800 ∧ encode (.pack 4 8) = 0x10000000804 ∧ encode (.unpack 4 8) = 0x20000000804 ∧
  encode (.pack 5 13) = 0x10000000D05 ∧ encode (.unpack 64 4) = 0x20000000440 ∧
  encode (.unpack 4 4294967295) = 0x2FFFFFFFF04

/-- The serialised header is five bytes, `bit_width` and then `count` least significant byte first, as R68 states; reading
the five bytes gives the header back, and nothing but five bytes is a header. That reading is the model's inverse of R68,
which gives the one direction only (DEDUCED, log entry 12). -/
def Obligations.HeaderSerialisesToFiveBytes : Prop :=
  (∀ (w : BitWidth) (n : Count),
    (headerOf w n).toNat = n.toNat * 2 ^ 8 + w.toNat ∧
    (headerBytes (headerOf w n)).map BitVec.toNat =
      [w.toNat, n.toNat % 2 ^ 8, n.toNat / 2 ^ 8 % 2 ^ 8, n.toNat / 2 ^ 16 % 2 ^ 8, n.toNat / 2 ^ 24]) ∧
  (∀ (bs : List Byte) (h : Header), headerOfBytes bs = some h ↔ headerBytes h = bs) ∧
  headerOf 5 13 = 0x0000000D05 ∧ headerBytes 0x0000000D05 = [0x05, 0x0D, 0x00, 0x00, 0x00]

/-- A written command names the word the spec gives it exactly when its operands fit their fields; `PACKA` and operands
that do not fit name no command. -/
def Obligations.WrittenFormAssembles : Prop :=
  ∀ w n : Nat,
    (n < 2 ^ 32 → (Asm.selw n).assemble.map (fun i => (encode i).toNat) = some (n * 2 ^ 8)) ∧
    (w < 2 ^ 8 → n < 2 ^ 32 →
      (Asm.pack w n).assemble.map (fun i => (encode i).toNat) = some (2 ^ 40 + n * 2 ^ 8 + w) ∧
      (Asm.unpack w n).assemble.map (fun i => (encode i).toNat) = some (2 * 2 ^ 40 + n * 2 ^ 8 + w)) ∧
    (2 ^ 32 ≤ n → (Asm.selw n).assemble = none) ∧
    ((2 ^ 8 ≤ w ∨ 2 ^ 32 ≤ n) → (Asm.pack w n).assemble = none ∧ (Asm.unpack w n).assemble = none) ∧
    (Asm.packa n).assemble = none

/-! ## The step -/

/-- When the value of `CMD` decodes to a command, the pending step is `exec` of it at that state, after which no command
is pending. -/
def Obligations.StepRunsDecodedCommand : Prop :=
  ∀ (s : State) (i : Instr), s.pending = true → i.wellFormed = true → decode s.cmd = .ok i →
    (∀ t, exec i s = .next t → step s = .next { t with pending := false }) ∧
    (∀ r, exec i s = .refused r → step s = .refused r) ∧
    (∀ r, exec i s = .fault r → step s = .fault r)

/-- With no command pending ENGINE executes nothing: the state stands. -/
def Obligations.NoCommandNothingRuns : Prop :=
  ∀ s : State, s.pending = false → step s = .next s

/-- HOST's issue is one write of `CMD` and one ENGINE step: it is `exec` of the command it wrote, `CMD` keeps the
command, and none is pending afterwards. -/
def Obligations.IssueIsOneStep : Prop :=
  ∀ (s t : State) (i : Instr), s.pending = false → exec i { s with cmd := encode i, pending := true } = .next t →
    hostAct (.issue (encode i)) s = .next { t with pending := false } ∧ t.cmd = encode i

/-- R199: every issued command completes, whatever `STATUS` it ends with, when `op` is not the reserved one and the cells
the command can use exist. -/
def Obligations.EveryIssuedCommandCompletes : Prop :=
  ∀ (s : State) (c : Command), s.pending = false → cmdOp c ≠ 3 → (cmdCount c).toNat ≤ s.caps.val →
    (cmdOp c ≠ 0 → (cmdWidth c).toNat ≤ 64 → wordCount (cmdCount c).toNat (cmdWidth c).toNat ≤ s.caps.wrd) →
    ∃ t, hostAct (.issue c) s = .next t ∧ t.cmd = c ∧ t.pending = false ∧ t.status.toNat ≤ 4

/-! ## SELW (spec/41_select_width.md) -/

/-- R100: SELW leaves in `WRES` the bit length of the block's unsigned maximum and changes nothing else but `STATUS`; on
an empty block it raises `InvalidInput`. The `bit_width` field `x` is any. -/
def Obligations.SelwSelectsBlockMaximum : Prop :=
  ∀ (s : State) (n : Count) (x : BitWidth),
    (n = 0 → exec (.selw n x) s = .next { s with status := 4 }) ∧
    (n ≠ 0 → n.toNat ≤ s.caps.val →
      ∃ m : Value, (∀ i < n.toNat, (s.readVal i).toNat ≤ m.toNat) ∧ (∃ i < n.toNat, s.readVal i = m) ∧
        exec (.selw n x) s = .next { s with wres := BitVec.ofNat 8 (bitLength m), status := 0 })

/-- R101: `SELW 0` raises `InvalidInput` and changes nothing else. -/
def Obligations.SelwRejectsEmptyBlock : Prop :=
  ∀ (s : State) (x : BitWidth), exec (.selw 0 x) s = .next { s with status := 4 }

/-- R102: the all-zero block selects W = 0, at which PACK has no words. -/
def Obligations.SelwOfZerosIsZero : Prop :=
  ∀ (s : State) (n : Count) (x : BitWidth), n ≠ 0 → n.toNat ≤ s.caps.val → (∀ i < n.toNat, s.readVal i = 0) →
    exec (.selw n x) s = .next { s with wres := 0, status := 0 } ∧ wordCount n.toNat 0 = 0

/-- The selected width is the tight minimum: the block's maximum is below `2^W` and, unless `W = 0`, at least `2^(W-1)`, as
R103 states. That every value therefore fits `W` and some value does not fit `W - 1` is the spec's own derivation there. -/
def Obligations.SelwIsTightMinimum : Prop :=
  ∀ (s : State) (n : Count) (x : BitWidth), n ≠ 0 → n.toNat ≤ s.caps.val →
    ∃ t, exec (.selw n x) s = .next t ∧ t.status = 0 ∧ t.wres.toNat ≤ 64 ∧
      (∀ i < n.toNat, (s.readVal i).toNat < 2 ^ t.wres.toNat ∧ fits (s.readVal i) t.wres.toNat = true) ∧
      (t.wres.toNat = 0 ∨ ∃ i < n.toNat, 2 ^ (t.wres.toNat - 1) ≤ (s.readVal i).toNat ∧
        fits (s.readVal i) (t.wres.toNat - 1) = false)

/-- R65: for `op = 0` any value of the `bit_width` field selects the same operation with the same result. -/
def Obligations.SelwIgnoresWidthField : Prop :=
  ∀ (s : State) (c c' : Command), cmdOp c = 0 → cmdOp c' = 0 → cmdCount c = cmdCount c' →
    ∃ x x', decode c = .ok (.selw (cmdCount c) x) ∧ decode c' = .ok (.selw (cmdCount c) x') ∧
      exec (.selw (cmdCount c) x) s = exec (.selw (cmdCount c) x') s

/-! ## PACK (spec/42_pack.md) -/

/-- The words PACK leaves, in closed form: with `S` the sum of `VAL[i] * 2^(i*W)`, word `j` is `S / 2^(64*j) mod 2^64`.
`WLEN`, `HDR` and `STATUS` are written, every word from the word count on and everything else stays. The closed form is
the spec's own inference ("says the same as the loop", spec/42_pack.md); the model runs the loop. -/
def Obligations.PackLeavesClosedForm : Prop :=
  ∀ (s : State) (w : BitWidth) (n : Count), w.toNat ≤ 64 → s.HasRoom n.toNat w.toNat →
    (∀ i < n.toNat, fits (s.readVal i) w.toNat = true) →
    ∃ t, exec (.pack w n) s = .next t ∧
      blockNumber s w.toNat n.toNat < 2 ^ (n.toNat * w.toNat) ∧
      (∀ j < wordCount n.toNat w.toNat,
        (t.readWrd j).toNat = blockNumber s w.toNat n.toNat / 2 ^ (64 * j) % 2 ^ 64) ∧
      (∀ j, wordCount n.toNat w.toNat ≤ j → t.readWrd j = s.readWrd j) ∧
      t = { s with wrd := t.wrd, wlen := BitVec.ofNat 32 (wordCount n.toNat w.toNat), hdr := headerOf w n,
                   status := 0 }

/-- R41: value `i` at width W occupies global positions `[i*W, i*W + W)`, bit `k` at `i*W + k`; position `p` is bit
`p % 64` of word `p / 64` and bit `p` of the words read as one number. -/
def Obligations.PackPlacesEachBit : Prop :=
  ∀ (s : State) (w : BitWidth) (n : Count), w.toNat ≤ 64 → s.HasRoom n.toNat w.toNat →
    (∀ i < n.toNat, fits (s.readVal i) w.toNat = true) →
    ∃ t, exec (.pack w n) s = .next t ∧
      (∀ i < n.toNat, ∀ k < w.toNat, bufferBit t (i * w.toNat + k) = (s.readVal i).getLsbD k) ∧
      (∀ p < 64 * wordCount n.toNat w.toNat,
        (bufferNumber t (wordCount n.toNat w.toNat)).testBit p = (t.readWrd (p / 64)).getLsbD (p % 64))

/-- R111: an illegal width raises `InvalidWidth` and does nothing else, whatever the values. (A count beyond the capacity
is refused: NoCellBeyondTheCapacity.) -/
def Obligations.PackRejectsIllegalWidth : Prop :=
  ∀ (s : State) (w : BitWidth) (n : Count), n.toNat ≤ s.caps.val → 64 < w.toNat →
    exec (.pack w n) s = .next { s with status := 3 }

/-- R112: a value that does not fit raises `BitWidthOverflow` and nothing but `STATUS` is written; at `W = 64` every
value fits, at `W = 0` only 0 does. (A command beyond a capacity is refused: NoCellBeyondTheCapacity.) -/
def Obligations.PackRejectsOverflow : Prop :=
  (∀ (s : State) (w : BitWidth) (n : Count), w.toNat ≤ 64 → s.HasRoom n.toNat w.toNat →
    (∃ i < n.toNat, fits (s.readVal i) w.toNat = false) → exec (.pack w n) s = .next { s with status := 1 }) ∧
  (∀ v : Value, fits v 64 = true) ∧ (∀ v : Value, fits v 0 = true ↔ v = 0)

/-- R114: every bit of PACK's words at or above global position `N*W` is 0, wherever the value of those cells was before;
there are at most 63 such bits, all in the last word. -/
def Obligations.PackZeroesPadding : Prop :=
  ∀ (s : State) (w : BitWidth) (n : Count), w.toNat ≤ 64 → s.HasRoom n.toNat w.toNat →
    (∀ i < n.toNat, fits (s.readVal i) w.toNat = true) →
    ∃ t, exec (.pack w n) s = .next t ∧
      64 * wordCount n.toNat w.toNat - n.toNat * w.toNat ≤ 63 ∧
      ∀ p, n.toNat * w.toNat ≤ p → p < 64 * wordCount n.toNat w.toNat →
        bufferBit t p = false ∧ p / 64 = wordCount n.toNat w.toNat - 1

/-- R116: on success `WLEN` is the word count itself, never a truncation of it, and `HDR` is (W, N). -/
def Obligations.PackWritesLengthAndHeader : Prop :=
  ∀ (s : State) (w : BitWidth) (n : Count), w.toNat ≤ 64 → s.HasRoom n.toNat w.toNat →
    (∀ i < n.toNat, fits (s.readVal i) w.toNat = true) →
    ∃ t, exec (.pack w n) s = .next t ∧ t.status = 0 ∧ t.wlen.toNat = wordCount n.toNat w.toNat ∧
      headerWidth t.hdr = w ∧ headerCount t.hdr = n

/-- R117, with the whole frame of PACK: words from the word count on stay; an error leaves `WRD`, `WLEN` and `HDR`; and in
no case does PACK write `VAL`, `WRES`, `CMD` or what the model carries beside the seven elements. -/
def Obligations.PackFrame : Prop :=
  ∀ (s t : State) (w : BitWidth) (n : Count), exec (.pack w n) s = .next t →
    t = { s with wrd := t.wrd, wlen := t.wlen, hdr := t.hdr, status := t.status } ∧
    (∀ j, wordCount n.toNat w.toNat ≤ j → t.readWrd j = s.readWrd j ∧ t.wrd.read? j = s.wrd.read? j) ∧
    (t.status ≠ 0 → t.wrd = s.wrd ∧ t.wlen = s.wlen ∧ t.hdr = s.hdr)

/-- R118: `W = 0` packs only zeros, into no words. -/
def Obligations.PackAtWidthZero : Prop :=
  ∀ (s : State) (n : Count), n.toNat ≤ s.caps.val →
    ((∀ i < n.toNat, s.readVal i = 0) →
      exec (.pack 0 n) s = .next { s with wlen := 0, hdr := headerOf 0 n, status := 0 }) ∧
    ((∃ i < n.toNat, s.readVal i ≠ 0) → exec (.pack 0 n) s = .next { s with status := 1 })

/-- R119: at `W = 64` each value occupies exactly one word: a faithful copy, never an overflow, never a straddle. -/
def Obligations.PackAtFullWidthCopies : Prop :=
  ∀ (s : State) (n : Count), n.toNat ≤ s.caps.val → n.toNat ≤ s.caps.wrd →
    ∃ t, exec (.pack 64 n) s = .next t ∧ t.status = 0 ∧ t.wlen = n ∧ wordCount n.toNat 64 = n.toNat ∧
      ∀ i < n.toNat, t.readWrd i = s.readVal i ∧ bitOffset i 64 = 0 ∧ straddles i 64 = false

/-- R120: `PACK w, 0` with a legal width succeeds and writes no word; with an illegal one it raises `InvalidWidth`. -/
def Obligations.PackOfEmptyBlock : Prop :=
  ∀ (s : State) (w : BitWidth),
    (w.toNat ≤ 64 → exec (.pack w 0) s = .next { s with wlen := 0, hdr := headerOf w 0, status := 0 }) ∧
    (65 ≤ w.toNat → exec (.pack w 0) s = .next { s with status := 3 })

/-- R121: PACK's outputs are a function of (`VAL[0 .. N-1]`, W, N) alone: two states that agree on them, however they
differ otherwise, give the same status, length, header and words. -/
def Obligations.PackDependsOnBlockOnly : Prop :=
  ∀ (s s' t : State) (w : BitWidth) (n : Count), s'.caps = s.caps → (∀ i < n.toNat, s'.readVal i = s.readVal i) →
    exec (.pack w n) s = .next t →
    ∃ t', exec (.pack w n) s' = .next t' ∧ t'.status = t.status ∧
      (t.status = 0 → t'.wlen = t.wlen ∧ t'.hdr = t.hdr ∧
        ∀ j < wordCount n.toNat w.toNat, t'.readWrd j = t.readWrd j)

/-! ## UNPACK (spec/43_unpack.md) -/

/-- The values UNPACK leaves, in closed form: with `S` the words as one number, value `i` is `S / 2^(i*W) mod 2^W`. Only
`VAL[0 .. N-1]` and `STATUS` are written. The closed form is the spec's own inference ("says the same as the loop",
spec/43_unpack.md); the model runs the loop. -/
def Obligations.UnpackLeavesClosedForm : Prop :=
  ∀ (s : State) (w : BitWidth) (n : Count), w.toNat ≤ 64 → s.HasRoom n.toNat w.toNat →
    s.wlen.toNat = wordCount n.toNat w.toNat →
    ∃ t, exec (.unpack w n) s = .next t ∧
      (∀ i < n.toNat,
        (t.readVal i).toNat = bufferNumber s (wordCount n.toNat w.toNat) / 2 ^ (i * w.toNat) % 2 ^ w.toNat) ∧
      (∀ i, n.toNat ≤ i → t.readVal i = s.readVal i) ∧
      t = { s with val := t.val, status := 0 }

/-- R131: an illegal width raises `InvalidWidth` and does nothing else, whatever the length. (A count beyond the capacity
is refused: NoCellBeyondTheCapacity.) -/
def Obligations.UnpackRejectsIllegalWidth : Prop :=
  ∀ (s : State) (w : BitWidth) (n : Count), n.toNat ≤ s.caps.val → 64 < w.toNat →
    exec (.unpack w n) s = .next { s with status := 3 }

/-- R132: at a legal width a length that differs from the exact word count, by too few words or too many, raises
`MalformedBuffer` and writes nothing else. (A command beyond a capacity is refused: NoCellBeyondTheCapacity.) -/
def Obligations.UnpackRejectsWrongLength : Prop :=
  ∀ (s : State) (w : BitWidth) (n : Count), w.toNat ≤ 64 → s.HasRoom n.toNat w.toNat →
    s.wlen.toNat ≠ (n.toNat * w.toNat + 63) / 64 → exec (.unpack w n) s = .next { s with status := 2 }

/-- R134: every reconstructed value fits its width, and at `W = 64` the mask is all ones. -/
def Obligations.UnpackedValuesFit : Prop :=
  ∀ (s : State) (w : BitWidth) (n : Count), w.toNat ≤ 64 → s.HasRoom n.toNat w.toNat →
    s.wlen.toNat = wordCount n.toNat w.toNat →
    ∃ t, exec (.unpack w n) s = .next t ∧ t.status = 0 ∧
      ∀ i < n.toNat, fits (t.readVal i) w.toNat = true ∧
        t.readVal i = (if w.toNat = 0 then 0 else fieldBits s w.toNat i &&& mask w.toNat)

/-- At `W = 0` every reconstructed value is 0 and no word is read: the result is the same whatever `WRD` holds (R136). That
a length other than 0 raises `MalformedBuffer` is the spec's own derivation there, from R132. -/
def Obligations.UnpackAtWidthZero : Prop :=
  ∀ (s : State) (n : Count), n.toNat ≤ s.caps.val →
    (s.wlen = 0 → ∃ t, exec (.unpack 0 n) s = .next t ∧ t.status = 0 ∧ (∀ i < n.toNat, t.readVal i = 0) ∧
      ∀ m : Memory, exec (.unpack 0 n) { s with wrd := m } = .next { t with wrd := m }) ∧
    (s.wlen ≠ 0 → exec (.unpack 0 n) s = .next { s with status := 2 })

/-- R137: at `W = 64` the length must be N and the values are the words. -/
def Obligations.UnpackAtFullWidthCopies : Prop :=
  ∀ (s : State) (n : Count), n.toNat ≤ s.caps.val → n.toNat ≤ s.caps.wrd →
    (s.wlen ≠ n → exec (.unpack 64 n) s = .next { s with status := 2 }) ∧
    (s.wlen = n →
      ∃ t, exec (.unpack 64 n) s = .next t ∧ t.status = 0 ∧
        ∀ i < n.toNat, t.readVal i = s.readWrd i ∧ bitOffset i 64 = 0 ∧ straddles i 64 = false)

/-- R138: `UNPACK w, 0` at a legal width requires `WLEN = 0` and then only sets `STATUS`. -/
def Obligations.UnpackOfEmptyBlock : Prop :=
  ∀ (s : State) (w : BitWidth),
    (w.toNat ≤ 64 → s.wlen = 0 → exec (.unpack w 0) s = .next { s with status := 0 }) ∧
    (w.toNat ≤ 64 → s.wlen ≠ 0 → exec (.unpack w 0) s = .next { s with status := 2 }) ∧
    (65 ≤ w.toNat → exec (.unpack w 0) s = .next { s with status := 3 })

/-- R139, with the whole frame of UNPACK: values from the count on stay, an error leaves all of `VAL`, and `WRD`, `WLEN`,
`HDR`, `WRES` and `CMD` are never written. -/
def Obligations.UnpackFrame : Prop :=
  ∀ (s t : State) (w : BitWidth) (n : Count), exec (.unpack w n) s = .next t →
    t = { s with val := t.val, status := t.status } ∧
    (∀ i, n.toNat ≤ i → t.readVal i = s.readVal i ∧ t.val.read? i = s.val.read? i) ∧
    (t.status ≠ 0 → t.val = s.val)

/-- R140: two buffers that differ only in padding bits unpack to the same block, without error. -/
def Obligations.UnpackIgnoresPadding : Prop :=
  ∀ (s s' : State) (w : BitWidth) (n : Count), w.toNat ≤ 64 → s.HasRoom n.toNat w.toNat →
    s.wlen.toNat = wordCount n.toNat w.toNat → s'.wlen = s.wlen → s'.caps = s.caps →
    (∀ p < n.toNat * w.toNat, bufferBit s' p = bufferBit s p) →
    ∃ t t', exec (.unpack w n) s = .next t ∧ exec (.unpack w n) s' = .next t' ∧ t.status = 0 ∧ t'.status = 0 ∧
      ∀ i < n.toNat, t'.readVal i = t.readVal i

/-- R141: UNPACK's outputs are a function of (words, W, N) alone, where words is (`WRD[0 .. WLEN-1]`, `WLEN`). -/
def Obligations.UnpackDependsOnWordsOnly : Prop :=
  ∀ (s s' t : State) (w : BitWidth) (n : Count), s'.caps = s.caps → s'.wlen = s.wlen →
    (∀ j < s.wlen.toNat, s'.readWrd j = s.readWrd j) → exec (.unpack w n) s = .next t →
    ∃ t', exec (.unpack w n) s' = .next t' ∧ t'.status = t.status ∧
      (t.status = 0 → ∀ i < n.toNat, t'.readVal i = t.readVal i)

/-! ## Arithmetic and addressing (spec/20_memory.md, spec/40_common_arithmetic.md) -/

/-- `bit_length(v)` is the least `k` with `v < 2^k`; it is the highest set bit's position plus one, and 64 less the leading
zeros: these are the spec's own derivations from the definition R80 states (0 at 0, else `floor(log2 v) + 1`), which stands
here beside them, with its range 0 .. 64 and the samples. -/
def Obligations.BitLengthIsLeastWidth : Prop :=
  (∀ (v : Value) (k : Nat), bitLength v ≤ k ↔ v.toNat < 2 ^ k) ∧
  (∀ v : Value, bitLength v ≤ 64 ∧ bitLength v = 64 - v.clz.toNat ∧
    (v ≠ 0 → bitLength v = Nat.log2 v.toNat + 1 ∧ v.getLsbD (bitLength v - 1) = true) ∧
    ∀ k, bitLength v ≤ k → v.getLsbD k = false) ∧
  bitLength 0 = 0 ∧ (∀ k, 1 ≤ k → k ≤ 64 → bitLength (BitVec.ofNat 64 (2 ^ k - 1)) = k) ∧
  (∀ k, k ≤ 63 → bitLength (BitVec.ofNat 64 (2 ^ k)) = k + 1)

/-- A value fits a legal width exactly when it is below `2^W`; a block passes exactly when every value does, and, if it is
not empty, exactly when its maximum does: so R85 states. The forms by the bit length and by the right shift are the spec's
own derivations there, from R80. -/
def Obligations.BlockFitsIffMaximumFits : Prop :=
  (∀ (v : Value) (w : Nat), w ≤ 64 → (fits v w = true ↔ v.toNat < 2 ^ w) ∧ (fits v w = true ↔ bitLength v ≤ w) ∧
    (fits v w = true ↔ w = 64 ∨ v.toNat >>> w = 0)) ∧
  (∀ v : Value, fits v 64 = true ∧ (fits v 0 = true ↔ v = 0)) ∧
  (∀ (s : State) (w n : Nat), allFit s w n = true ↔ ∀ i < n, fits (s.readVal i) w = true) ∧
  (∀ (s : State) (w n : Nat), w ≤ 64 → n ≠ 0 → (allFit s w n = true ↔ fits (blockMax s n) w = true))

/-- R89: the mask is `2^W - 1` for every legal width, all 64 bits at `W = 64` and none at `W = 0`. -/
def Obligations.MaskIsAllLowBits : Prop :=
  (∀ w, w ≤ 64 → (mask w).toNat = 2 ^ w - 1) ∧ mask 64 = BitVec.allOnes 64 ∧ mask 0 = 0

/-- The facts about the word count that the spec derives: zero exactly for no bits, N at full width, never above N, and
exact where 32-bit products are not. -/
def Obligations.WordCountFacts : Prop :=
  (∀ n w : Nat, w ≤ 64 → (wordCount n w = 0 ↔ n = 0 ∨ w = 0) ∧ wordCount n w ≤ n) ∧
  (∀ n : Nat, wordCount n 64 = n) ∧
  (∀ n i w : Nat, n ≤ 2 ^ 32 - 1 → w ≤ 64 → i < n → bitCursor i w < 2 ^ 38 ∧ n * w + 63 < 2 ^ 38) ∧
  wordCount 13 5 = 2 ∧ wordCount 8 4 = 1 ∧ wordCount 16 4 = 1 ∧ wordCount 17 4 = 2 ∧
  wordCount (2 ^ 32 - 1) 64 = 2 ^ 32 - 1 ∧ wordCount (2 ^ 32 - 1) 1 = 2 ^ 26

/-- A field of a legal width touches its first word or that and the next, never a third, and, for a value of the block,
both are words of the buffer; straddling implies a shift by 1 .. 63, and offset 0 never straddles (the spec's
derivations in spec/20_memory.md and spec/40_common_arithmetic.md). -/
def Obligations.FieldStaysInItsWords : Prop :=
  ∀ i n w : Nat, w ≤ 64 → i < n →
    bitOffset i w ≤ 63 ∧ bitOffset i w + w ≤ 127 ∧ i * w = 64 * wordIndex i w + bitOffset i w ∧
    (∀ k < w, (i * w + k) / 64 = wordIndex i w ∨ (straddles i w = true ∧ (i * w + k) / 64 = wordIndex i w + 1)) ∧
    (w ≠ 0 → wordIndex i w < wordCount n w) ∧
    (straddles i w = true → 1 ≤ bitOffset i w ∧ wordIndex i w + 1 = (i * w + w - 1) / 64 ∧
      wordIndex i w + 1 < wordCount n w) ∧
    (straddles i w = true ↔ 64 < bitOffset i w + w)

/-- The two memory laws: a cell reads as last written, and every other cell of both memories reads as before. -/
def Obligations.CellReadsAsLastWritten : Prop :=
  ∀ (s : State) (i : Nat) (v : Word) (j : Nat),
    (s.writeVal i v).readVal j = (if j = i then v else s.readVal j) ∧
    (s.writeWrd i v).readWrd j = (if j = i then v else s.readWrd j) ∧
    (s.writeVal i v).readWrd j = s.readWrd j ∧ (s.writeWrd i v).readVal j = s.readVal j

/-! ## Composition (spec/44_composition.md) -/

/-- R152: the round-trip law. A block that fits, packed and unpacked with the same W and N, comes back, whatever HOST put
into `VAL` in between; both commands end with `STATUS = 0`. -/
def Obligations.PackThenUnpackRoundTrips : Prop :=
  ∀ (s : State) (w : BitWidth) (n : Count), w.toNat ≤ 64 → s.HasRoom n.toNat w.toNat →
    (∀ i < n.toNat, fits (s.readVal i) w.toNat = true) →
    ∃ t, exec (.pack w n) s = .next t ∧ t.status = 0 ∧
      ∀ m : Memory, ∃ u, exec (.unpack w n) { t with val := m } = .next u ∧ u.status = 0 ∧
        ∀ i < n.toNat, u.readVal i = s.readVal i

/-- The reverse law: unpacking a buffer and packing the values again gives the same length and the same words but for the
padding bits, which are then 0; so the words come back exactly when their padding was 0 (the spec's derivation in
spec/44_composition.md). -/
def Obligations.UnpackThenPackClearsPadding : Prop :=
  ∀ (s : State) (w : BitWidth) (n : Count), w.toNat ≤ 64 → s.HasRoom n.toNat w.toNat →
    s.wlen.toNat = wordCount n.toNat w.toNat →
    ∃ t u, exec (.unpack w n) s = .next t ∧ exec (.pack w n) t = .next u ∧ t.status = 0 ∧ u.status = 0 ∧
      u.wlen = s.wlen ∧
      (∀ p < 64 * wordCount n.toNat w.toNat,
        bufferBit u p = (if p < n.toNat * w.toNat then bufferBit s p else false)) ∧
      ((∀ j < wordCount n.toNat w.toNat, u.readWrd j = s.readWrd j) ↔
        ∀ p, n.toNat * w.toNat ≤ p → p < 64 * wordCount n.toNat w.toNat → bufferBit s p = false)

/-- `PACKA n`: the two commands of its expansion leave the block packed at its own width. `WRES` is the bit length of the
block's unsigned maximum `m`, every value fits it, the words are the block's number at that width cut into 64 bits, `WLEN`,
`HDR` and `STATUS` say so, nothing else is written, and no legal width that fits gives fewer words. An empty block stops
after `InvalidInput`. (The spec's derivations in spec/44_composition.md and, for the words, spec/42_pack.md.) -/
def Obligations.PackaPacksAtTheMinimum : Prop :=
  ∀ (s : State) (n : Count), s.pending = false → n.toNat ≤ s.caps.val → n.toNat ≤ s.caps.wrd →
    (n = 0 → packa n s = .next { s with cmd := encode (.selw 0 0), status := 4 }) ∧
    (n ≠ 0 → ∃ (t : State) (m : Value), packa n s = .next t ∧
      (∀ i < n.toNat, (s.readVal i).toNat ≤ m.toNat) ∧ (∃ i < n.toNat, s.readVal i = m) ∧
      t.wres.toNat = bitLength m ∧ t.wres.toNat ≤ 64 ∧
      (∀ i < n.toNat, fits (s.readVal i) t.wres.toNat = true) ∧
      t.wlen.toNat = wordCount n.toNat t.wres.toNat ∧
      (∀ j < wordCount n.toNat t.wres.toNat,
        (t.readWrd j).toNat = blockNumber s t.wres.toNat n.toNat / 2 ^ (64 * j) % 2 ^ 64) ∧
      (∀ j, wordCount n.toNat t.wres.toNat ≤ j → t.readWrd j = s.readWrd j) ∧
      t = { s with cmd := encode (.pack t.wres n), wrd := t.wrd, wlen := t.wlen, hdr := headerOf t.wres n,
                   wres := t.wres, status := 0 } ∧
      ∀ w, w ≤ 64 → (∀ i < n.toNat, fits (s.readVal i) w = true) → t.wlen.toNat ≤ wordCount n.toNat w)

/-- After a successful SELW, PACK of the same block at the selected width or any larger legal one cannot overflow: it
succeeds (the spec's derivation in spec/41_select_width.md). -/
def Obligations.SelectedWidthAlwaysPacks : Prop :=
  ∀ (s t : State) (n : Count) (x w : BitWidth), exec (.selw n x) s = .next t → t.status = 0 →
    t.wres.toNat ≤ w.toNat → w.toNat ≤ 64 → wordCount n.toNat w.toNat ≤ s.caps.wrd →
    ∃ u, exec (.pack w n) t = .next u ∧ u.status = 0

/-! ## Errors (spec/60_exceptions.md) and the whole machine -/

/-- R165: `raise E` writes `code(E)` to `STATUS` and changes no other element, and a command that ends with an error ends
so: it is one `raise` at the state it was issued in, with nothing written before it. -/
def Obligations.ErrorChangesOnlyStatus : Prop :=
  (∀ (e : Err) (s : State), raise e s = { s with status := e.code }) ∧
  Err.code .bitWidthOverflow = 1 ∧ Err.code .malformedBuffer = 2 ∧ Err.code .invalidWidth = 3 ∧
  Err.code .invalidInput = 4 ∧
  ∀ (i : Instr) (s t : State), exec i s = .next t → t.status ≠ 0 → ∃ e, t = raise e s

/-- Which command ends with which code, each with the condition that decides it; the values 5, 6 and 7 are never written
(the pairing is the spec's derivation in spec/60_exceptions.md). -/
def Obligations.EachCommandHasItsErrors : Prop :=
  ∀ (s t : State) (w : BitWidth) (n : Count),
    (exec (.selw n w) s = .next t → (t.status = 0 ∨ t.status = 4) ∧ (t.status = 4 ↔ n = 0)) ∧
    (exec (.pack w n) s = .next t → (t.status = 0 ∨ t.status = 1 ∨ t.status = 3) ∧
      (t.status = 3 ↔ 64 < w.toNat) ∧
      (t.status = 1 ↔ w.toNat ≤ 64 ∧ ∃ i < n.toNat, fits (s.readVal i) w.toNat = false)) ∧
    (exec (.unpack w n) s = .next t → (t.status = 0 ∨ t.status = 2 ∨ t.status = 3) ∧
      (t.status = 3 ↔ 64 < w.toNat) ∧
      (t.status = 2 ↔ w.toNat ≤ 64 ∧ s.wlen.toNat ≠ wordCount n.toNat w.toNat))

/-- R49: reading changes nothing, and re-issuing a command that ran leaves the very state it left the first time. The
canonical form of the memories is what makes equal contents equal data. -/
def Obligations.ReissueChangesNothing : Prop :=
  (∀ (s : State) (e : Element) (x : Nat), s.pending = false → hostRead e s = .next x →
    hostAct (.read e) s = .next s) ∧
  (∀ (i : Instr) (s t : State), s.Inv → exec i s = .next t → exec i t = .next t)

/-- A step writes only the elements the access table gives its command (spec/10_state.md, section 4), and never `CMD`,
the capacities or the draw marks. -/
def Obligations.StepWritesOnlyItsElements : Prop :=
  ∀ s t : State, step s = .next t →
    t.cmd = s.cmd ∧ t.caps = s.caps ∧ t.drawUnit = s.drawUnit ∧ t.drawEpoch = s.drawEpoch ∧ t.pending = false ∧
    (cmdOp s.cmd ≠ 0 → t.wres = s.wres) ∧
    (cmdOp s.cmd ≠ 1 → t.wrd = s.wrd ∧ t.wlen = s.wlen ∧ t.hdr = s.hdr) ∧
    (cmdOp s.cmd ≠ 2 → t.val = s.val)

/-- The capacities are parameters: a command whose count exceeds `CAP_VAL`, or whose word count exceeds `CAP_WRD`, is
refused and raises nothing, whatever else is wrong with it; every other command answers a next state. A command has a word
count only at a legal width, and SELW none (read from R131 and R65; DEDUCED, log entry 7). -/
def Obligations.NoCellBeyondTheCapacity : Prop :=
  ∀ (s : State) (w : BitWidth) (n : Count),
    (s.caps.val < n.toNat → exec (.selw n w) s = .refused .capacityVal ∧ exec (.pack w n) s = .refused .capacityVal ∧
      exec (.unpack w n) s = .refused .capacityVal) ∧
    (n.toNat ≤ s.caps.val → w.toNat ≤ 64 → s.caps.wrd < wordCount n.toNat w.toNat →
      exec (.pack w n) s = .refused .capacityWrd ∧ exec (.unpack w n) s = .refused .capacityWrd) ∧
    (n.toNat ≤ s.caps.val → GoesOn (exec (.selw n w) s)) ∧
    (n.toNat ≤ s.caps.val → (w.toNat ≤ 64 → wordCount n.toNat w.toNat ≤ s.caps.wrd) →
      GoesOn (exec (.pack w n) s) ∧ GoesOn (exec (.unpack w n) s))

/-- Every step keeps the good state: both memories canonical, no cell beyond a memory's end, admissible capacities. -/
def Obligations.StepKeepsGoodState : Prop :=
  ∀ s t : State, s.Inv → step s = .next t → t.Inv

/-- Every action of HOST keeps the good state, the issue of a command and the reset among them. -/
def Obligations.HostActionKeepsGoodState : Prop :=
  ∀ (a : HostAction) (s t : State), s.Inv → hostAct a s = .next t → t.Inv

/-- The state right after reset is good. -/
def Obligations.ResetIsGoodState : Prop :=
  State.reset.Inv

/-! ## HOST and several instances (spec/60_exceptions.md, spec/70_reset_and_hazards.md) -/

/-- Reset leaves the registers the spec gives values for at them and no command pending, whatever came before, as R190 and
R35 state. That no cell counts as written is the model's form of R35's unspecified contents (DESIGN CHOICE, log entry 2),
and that the capacities in the state stay is the model's choice (DESIGN CHOICE, log entry 3). -/
def Obligations.ResetLeavesTheResetState : Prop :=
  (∀ s : State, s.pending = false → ∃ t, hostAct .reset s = .next t ∧ t.wlen = 0 ∧ t.hdr = 0 ∧ t.wres = 0 ∧
    t.status = 0 ∧ t.pending = false ∧ (∀ i, t.val.read? i = none ∧ t.wrd.read? i = none) ∧ t.caps = s.caps) ∧
  State.reset.wlen = 0 ∧ State.reset.hdr = 0 ∧ State.reset.wres = 0 ∧ State.reset.status = 0 ∧
  State.reset.pending = false ∧ ∀ i, State.reset.val.read? i = none ∧ State.reset.wrd.read? i = none

/-- R34: between commands HOST may read every element and write every one, it reads back what it wrote, and nothing else
changes; while a command is pending it has no move. (The write of `CMD` is the issue of a command.) -/
def Obligations.HostOwnsBetweenCommands : Prop :=
  ∀ s : State,
    (s.pending = true → ∀ a, hostAct a s = .refused .engineOwns) ∧
    (s.pending = false →
      (hostRead .cmd s = .next s.cmd.toNat ∧ hostRead .wlen s = .next s.wlen.toNat ∧
        hostRead .hdr s = .next s.hdr.toNat ∧ hostRead .wres s = .next s.wres.toNat ∧
        hostRead .status s = .next s.status.toNat ∧
        (∀ i < s.caps.val, hostRead (.val i) s = .next (s.readVal i).toNat) ∧
        (∀ j < s.caps.wrd, hostRead (.wrd j) s = .next (s.readWrd j).toNat)) ∧
      (∀ i v, i < s.caps.val → ∃ t, hostAct (.writeVal i v) s = .next t ∧ hostRead (.val i) t = .next v.toNat ∧
        t = { s with val := t.val } ∧ ∀ j, j ≠ i → t.readVal j = s.readVal j) ∧
      (∀ j x, j < s.caps.wrd → ∃ t, hostAct (.writeWrd j x) s = .next t ∧ hostRead (.wrd j) t = .next x.toNat ∧
        t = { s with wrd := t.wrd } ∧ ∀ k, k ≠ j → t.readWrd k = s.readWrd k) ∧
      (∀ k, hostAct (.writeWlen k) s = .next { s with wlen := k }) ∧
      (∀ h, hostAct (.writeHdr h) s = .next { s with hdr := h }) ∧
      (∀ r, hostAct (.writeWres r) s = .next { s with wres := r }) ∧
      (∀ c, hostAct (.writeStatus c) s = .next { s with status := c }))

/-- R180: a system is the product of its instances: after any run on the system each instance is where its own actions,
run alone and in their order, take it, whatever the interleaving. -/
def Obligations.InstancesRunIndependently : Prop :=
  ∀ (k : Nat) (acts : List (Fin k × HostAction)) (sys sys' : System k), System.run acts sys = .next sys' →
    ∀ u : Fin k, hostRun ((acts.filter (fun p => p.1 == u)).map Prod.snd) (sys.get u) = .next (sys'.get u)

/-- A run on a system stops only where one of its instances does: with the reason for which that instance's own actions, run
alone, stop; and if no instance's own actions stop, neither does the run. That the first stop ends the whole run is the
model's choice (DESIGN CHOICE, log entry 14); the independence is the product of R180. -/
def Obligations.RunStopsOnlyWhereAnInstanceStops : Prop :=
  ∀ (k : Nat) (acts : List (Fin k × HostAction)) (sys : System k),
    (∀ r, System.run acts sys = .fault r →
      ∃ u : Fin k, hostRun ((acts.filter (fun p => p.1 == u)).map Prod.snd) (sys.get u) = .fault r) ∧
    (∀ r, System.run acts sys = .refused r →
      ∃ u : Fin k, hostRun ((acts.filter (fun p => p.1 == u)).map Prod.snd) (sys.get u) = .refused r) ∧
    ((∀ u : Fin k, ∃ t, hostRun ((acts.filter (fun p => p.1 == u)).map Prod.snd) (sys.get u) = .next t) →
      ∃ sys', System.run acts sys = .next sys')
end

