-- ==== Sys2Proof/Laws/State.lean ====
section
/-! SUPPORT. What each update of the state does to each field: one lemma a field and update, true by `rfl`; and to a cell that is
read. No later proof unfolds an update. -/

namespace Sys2Proof.Machine

variable (s : State)

@[simp] theorem State.writeVal_cmd (i : Nat) (v : Value) : (s.writeVal i v).cmd = s.cmd := rfl
@[simp] theorem State.writeVal_val (i : Nat) (v : Value) : (s.writeVal i v).val = s.val.write i v := rfl
@[simp] theorem State.writeVal_wrd (i : Nat) (v : Value) : (s.writeVal i v).wrd = s.wrd := rfl
@[simp] theorem State.writeVal_wlen (i : Nat) (v : Value) : (s.writeVal i v).wlen = s.wlen := rfl
@[simp] theorem State.writeVal_hdr (i : Nat) (v : Value) : (s.writeVal i v).hdr = s.hdr := rfl
@[simp] theorem State.writeVal_wres (i : Nat) (v : Value) : (s.writeVal i v).wres = s.wres := rfl
@[simp] theorem State.writeVal_status (i : Nat) (v : Value) : (s.writeVal i v).status = s.status := rfl
@[simp] theorem State.writeVal_pending (i : Nat) (v : Value) : (s.writeVal i v).pending = s.pending := rfl
@[simp] theorem State.writeVal_caps (i : Nat) (v : Value) : (s.writeVal i v).caps = s.caps := rfl
@[simp] theorem State.writeVal_drawUnit (i : Nat) (v : Value) : (s.writeVal i v).drawUnit = s.drawUnit := rfl
@[simp] theorem State.writeVal_drawEpoch (i : Nat) (v : Value) : (s.writeVal i v).drawEpoch = s.drawEpoch := rfl

@[simp] theorem State.writeWrd_cmd (j : Nat) (x : Word) : (s.writeWrd j x).cmd = s.cmd := rfl
@[simp] theorem State.writeWrd_val (j : Nat) (x : Word) : (s.writeWrd j x).val = s.val := rfl
@[simp] theorem State.writeWrd_wrd (j : Nat) (x : Word) : (s.writeWrd j x).wrd = s.wrd.write j x := rfl
@[simp] theorem State.writeWrd_wlen (j : Nat) (x : Word) : (s.writeWrd j x).wlen = s.wlen := rfl
@[simp] theorem State.writeWrd_hdr (j : Nat) (x : Word) : (s.writeWrd j x).hdr = s.hdr := rfl
@[simp] theorem State.writeWrd_wres (j : Nat) (x : Word) : (s.writeWrd j x).wres = s.wres := rfl
@[simp] theorem State.writeWrd_status (j : Nat) (x : Word) : (s.writeWrd j x).status = s.status := rfl
@[simp] theorem State.writeWrd_pending (j : Nat) (x : Word) : (s.writeWrd j x).pending = s.pending := rfl
@[simp] theorem State.writeWrd_caps (j : Nat) (x : Word) : (s.writeWrd j x).caps = s.caps := rfl
@[simp] theorem State.writeWrd_drawUnit (j : Nat) (x : Word) : (s.writeWrd j x).drawUnit = s.drawUnit := rfl
@[simp] theorem State.writeWrd_drawEpoch (j : Nat) (x : Word) : (s.writeWrd j x).drawEpoch = s.drawEpoch := rfl

@[simp] theorem State.setWlen_cmd (k : BitVec 32) : (s.setWlen k).cmd = s.cmd := rfl
@[simp] theorem State.setWlen_val (k : BitVec 32) : (s.setWlen k).val = s.val := rfl
@[simp] theorem State.setWlen_wrd (k : BitVec 32) : (s.setWlen k).wrd = s.wrd := rfl
@[simp] theorem State.setWlen_wlen (k : BitVec 32) : (s.setWlen k).wlen = k := rfl
@[simp] theorem State.setWlen_hdr (k : BitVec 32) : (s.setWlen k).hdr = s.hdr := rfl
@[simp] theorem State.setWlen_wres (k : BitVec 32) : (s.setWlen k).wres = s.wres := rfl
@[simp] theorem State.setWlen_status (k : BitVec 32) : (s.setWlen k).status = s.status := rfl
@[simp] theorem State.setWlen_pending (k : BitVec 32) : (s.setWlen k).pending = s.pending := rfl
@[simp] theorem State.setWlen_caps (k : BitVec 32) : (s.setWlen k).caps = s.caps := rfl
@[simp] theorem State.setWlen_drawUnit (k : BitVec 32) : (s.setWlen k).drawUnit = s.drawUnit := rfl
@[simp] theorem State.setWlen_drawEpoch (k : BitVec 32) : (s.setWlen k).drawEpoch = s.drawEpoch := rfl

@[simp] theorem State.setHdr_cmd (h : Header) : (s.setHdr h).cmd = s.cmd := rfl
@[simp] theorem State.setHdr_val (h : Header) : (s.setHdr h).val = s.val := rfl
@[simp] theorem State.setHdr_wrd (h : Header) : (s.setHdr h).wrd = s.wrd := rfl
@[simp] theorem State.setHdr_wlen (h : Header) : (s.setHdr h).wlen = s.wlen := rfl
@[simp] theorem State.setHdr_hdr (h : Header) : (s.setHdr h).hdr = h := rfl
@[simp] theorem State.setHdr_wres (h : Header) : (s.setHdr h).wres = s.wres := rfl
@[simp] theorem State.setHdr_status (h : Header) : (s.setHdr h).status = s.status := rfl
@[simp] theorem State.setHdr_pending (h : Header) : (s.setHdr h).pending = s.pending := rfl
@[simp] theorem State.setHdr_caps (h : Header) : (s.setHdr h).caps = s.caps := rfl
@[simp] theorem State.setHdr_drawUnit (h : Header) : (s.setHdr h).drawUnit = s.drawUnit := rfl
@[simp] theorem State.setHdr_drawEpoch (h : Header) : (s.setHdr h).drawEpoch = s.drawEpoch := rfl

@[simp] theorem State.setWres_cmd (r : BitVec 8) : (s.setWres r).cmd = s.cmd := rfl
@[simp] theorem State.setWres_val (r : BitVec 8) : (s.setWres r).val = s.val := rfl
@[simp] theorem State.setWres_wrd (r : BitVec 8) : (s.setWres r).wrd = s.wrd := rfl
@[simp] theorem State.setWres_wlen (r : BitVec 8) : (s.setWres r).wlen = s.wlen := rfl
@[simp] theorem State.setWres_hdr (r : BitVec 8) : (s.setWres r).hdr = s.hdr := rfl
@[simp] theorem State.setWres_wres (r : BitVec 8) : (s.setWres r).wres = r := rfl
@[simp] theorem State.setWres_status (r : BitVec 8) : (s.setWres r).status = s.status := rfl
@[simp] theorem State.setWres_pending (r : BitVec 8) : (s.setWres r).pending = s.pending := rfl
@[simp] theorem State.setWres_caps (r : BitVec 8) : (s.setWres r).caps = s.caps := rfl
@[simp] theorem State.setWres_drawUnit (r : BitVec 8) : (s.setWres r).drawUnit = s.drawUnit := rfl
@[simp] theorem State.setWres_drawEpoch (r : BitVec 8) : (s.setWres r).drawEpoch = s.drawEpoch := rfl

@[simp] theorem State.setStatus_cmd (c : BitVec 3) : (s.setStatus c).cmd = s.cmd := rfl
@[simp] theorem State.setStatus_val (c : BitVec 3) : (s.setStatus c).val = s.val := rfl
@[simp] theorem State.setStatus_wrd (c : BitVec 3) : (s.setStatus c).wrd = s.wrd := rfl
@[simp] theorem State.setStatus_wlen (c : BitVec 3) : (s.setStatus c).wlen = s.wlen := rfl
@[simp] theorem State.setStatus_hdr (c : BitVec 3) : (s.setStatus c).hdr = s.hdr := rfl
@[simp] theorem State.setStatus_wres (c : BitVec 3) : (s.setStatus c).wres = s.wres := rfl
@[simp] theorem State.setStatus_status (c : BitVec 3) : (s.setStatus c).status = c := rfl
@[simp] theorem State.setStatus_pending (c : BitVec 3) : (s.setStatus c).pending = s.pending := rfl
@[simp] theorem State.setStatus_caps (c : BitVec 3) : (s.setStatus c).caps = s.caps := rfl
@[simp] theorem State.setStatus_drawUnit (c : BitVec 3) : (s.setStatus c).drawUnit = s.drawUnit := rfl
@[simp] theorem State.setStatus_drawEpoch (c : BitVec 3) : (s.setStatus c).drawEpoch = s.drawEpoch := rfl

@[simp] theorem raise_cmd (e : Err) : (raise e s).cmd = s.cmd := rfl
@[simp] theorem raise_val (e : Err) : (raise e s).val = s.val := rfl
@[simp] theorem raise_wrd (e : Err) : (raise e s).wrd = s.wrd := rfl
@[simp] theorem raise_wlen (e : Err) : (raise e s).wlen = s.wlen := rfl
@[simp] theorem raise_hdr (e : Err) : (raise e s).hdr = s.hdr := rfl
@[simp] theorem raise_wres (e : Err) : (raise e s).wres = s.wres := rfl
@[simp] theorem raise_status (e : Err) : (raise e s).status = e.code := rfl
@[simp] theorem raise_pending (e : Err) : (raise e s).pending = s.pending := rfl
@[simp] theorem raise_caps (e : Err) : (raise e s).caps = s.caps := rfl
@[simp] theorem raise_drawUnit (e : Err) : (raise e s).drawUnit = s.drawUnit := rfl
@[simp] theorem raise_drawEpoch (e : Err) : (raise e s).drawEpoch = s.drawEpoch := rfl

@[simp] theorem complete_cmd : (complete s).cmd = s.cmd := rfl
@[simp] theorem complete_val : (complete s).val = s.val := rfl
@[simp] theorem complete_wrd : (complete s).wrd = s.wrd := rfl
@[simp] theorem complete_wlen : (complete s).wlen = s.wlen := rfl
@[simp] theorem complete_hdr : (complete s).hdr = s.hdr := rfl
@[simp] theorem complete_wres : (complete s).wres = s.wres := rfl
@[simp] theorem complete_status : (complete s).status = statusOk := rfl
@[simp] theorem complete_pending : (complete s).pending = s.pending := rfl
@[simp] theorem complete_caps : (complete s).caps = s.caps := rfl
@[simp] theorem complete_drawUnit : (complete s).drawUnit = s.drawUnit := rfl
@[simp] theorem complete_drawEpoch : (complete s).drawEpoch = s.drawEpoch := rfl

@[simp] theorem State.issue_cmd (c : Command) : (s.issue c).cmd = c := rfl
@[simp] theorem State.issue_val (c : Command) : (s.issue c).val = s.val := rfl
@[simp] theorem State.issue_wrd (c : Command) : (s.issue c).wrd = s.wrd := rfl
@[simp] theorem State.issue_wlen (c : Command) : (s.issue c).wlen = s.wlen := rfl
@[simp] theorem State.issue_hdr (c : Command) : (s.issue c).hdr = s.hdr := rfl
@[simp] theorem State.issue_wres (c : Command) : (s.issue c).wres = s.wres := rfl
@[simp] theorem State.issue_status (c : Command) : (s.issue c).status = s.status := rfl
@[simp] theorem State.issue_pending (c : Command) : (s.issue c).pending = true := rfl
@[simp] theorem State.issue_caps (c : Command) : (s.issue c).caps = s.caps := rfl
@[simp] theorem State.issue_drawUnit (c : Command) : (s.issue c).drawUnit = s.drawUnit := rfl
@[simp] theorem State.issue_drawEpoch (c : Command) : (s.issue c).drawEpoch = s.drawEpoch := rfl

@[simp] theorem State.retire_cmd : (s.retire).cmd = s.cmd := rfl
@[simp] theorem State.retire_val : (s.retire).val = s.val := rfl
@[simp] theorem State.retire_wrd : (s.retire).wrd = s.wrd := rfl
@[simp] theorem State.retire_wlen : (s.retire).wlen = s.wlen := rfl
@[simp] theorem State.retire_hdr : (s.retire).hdr = s.hdr := rfl
@[simp] theorem State.retire_wres : (s.retire).wres = s.wres := rfl
@[simp] theorem State.retire_status : (s.retire).status = s.status := rfl
@[simp] theorem State.retire_pending : (s.retire).pending = false := rfl
@[simp] theorem State.retire_caps : (s.retire).caps = s.caps := rfl
@[simp] theorem State.retire_drawUnit : (s.retire).drawUnit = s.drawUnit := rfl
@[simp] theorem State.retire_drawEpoch : (s.retire).drawEpoch = s.drawEpoch := rfl

@[simp] theorem State.resetAgain_cmd : (s.resetAgain).cmd = 0 := rfl
@[simp] theorem State.resetAgain_val : (s.resetAgain).val = [] := rfl
@[simp] theorem State.resetAgain_wrd : (s.resetAgain).wrd = [] := rfl
@[simp] theorem State.resetAgain_wlen : (s.resetAgain).wlen = 0 := rfl
@[simp] theorem State.resetAgain_hdr : (s.resetAgain).hdr = 0 := rfl
@[simp] theorem State.resetAgain_wres : (s.resetAgain).wres = 0 := rfl
@[simp] theorem State.resetAgain_status : (s.resetAgain).status = 0 := rfl
@[simp] theorem State.resetAgain_pending : (s.resetAgain).pending = false := rfl
@[simp] theorem State.resetAgain_caps : (s.resetAgain).caps = s.caps := rfl
@[simp] theorem State.resetAgain_drawUnit : (s.resetAgain).drawUnit = s.drawUnit := rfl
@[simp] theorem State.resetAgain_drawEpoch : (s.resetAgain).drawEpoch = s.drawEpoch + 1 := rfl

@[simp] theorem State.writeVal_readWrd (i : Nat) (v : Value) (a : Nat) : (s.writeVal i v).readWrd a = s.readWrd a := rfl
@[simp] theorem State.writeWrd_readVal (j : Nat) (x : Word) (a : Nat) : (s.writeWrd j x).readVal a = s.readVal a := rfl
@[simp] theorem State.setWlen_readVal (k : BitVec 32) (a : Nat) : (s.setWlen k).readVal a = s.readVal a := rfl
@[simp] theorem State.setWlen_readWrd (k : BitVec 32) (a : Nat) : (s.setWlen k).readWrd a = s.readWrd a := rfl
@[simp] theorem State.setHdr_readVal (h : Header) (a : Nat) : (s.setHdr h).readVal a = s.readVal a := rfl
@[simp] theorem State.setHdr_readWrd (h : Header) (a : Nat) : (s.setHdr h).readWrd a = s.readWrd a := rfl
@[simp] theorem State.setWres_readVal (r : BitVec 8) (a : Nat) : (s.setWres r).readVal a = s.readVal a := rfl
@[simp] theorem State.setWres_readWrd (r : BitVec 8) (a : Nat) : (s.setWres r).readWrd a = s.readWrd a := rfl
@[simp] theorem State.setStatus_readVal (c : BitVec 3) (a : Nat) : (s.setStatus c).readVal a = s.readVal a := rfl
@[simp] theorem State.setStatus_readWrd (c : BitVec 3) (a : Nat) : (s.setStatus c).readWrd a = s.readWrd a := rfl
@[simp] theorem raise_readVal (e : Err) (a : Nat) : (raise e s).readVal a = s.readVal a := rfl
@[simp] theorem raise_readWrd (e : Err) (a : Nat) : (raise e s).readWrd a = s.readWrd a := rfl
@[simp] theorem complete_readVal (a : Nat) : (complete s).readVal a = s.readVal a := rfl
@[simp] theorem complete_readWrd (a : Nat) : (complete s).readWrd a = s.readWrd a := rfl
@[simp] theorem State.issue_readVal (c : Command) (a : Nat) : (s.issue c).readVal a = s.readVal a := rfl
@[simp] theorem State.issue_readWrd (c : Command) (a : Nat) : (s.issue c).readWrd a = s.readWrd a := rfl
@[simp] theorem State.retire_readVal (a : Nat) : (s.retire).readVal a = s.readVal a := rfl
@[simp] theorem State.retire_readWrd (a : Nat) : (s.retire).readWrd a = s.readWrd a := rfl

end Sys2Proof.Machine
end

