-- ==== Sys2Proof/Laws/Memory.lean ====
section
/-! SUPPORT. The two laws of a memory (a read after a write to the same cell, and to another), its canonical form, and what they
give for the two memories of the state. -/

namespace Sys2Proof.Machine

/-- A cell reads as what was last written to it. -/
@[simp] theorem Memory.read?_write_same (m : Memory) (i : Nat) (v : Word) : (m.write i v).read? i = some v := by
  induction m with
  | nil => simp [Memory.write, Memory.read?]
  | cons p m ih =>
    obtain ⟨a, x⟩ := p
    simp only [Memory.write]
    split
    · simp [Memory.read?]
    · split
      · simp [Memory.read?]
      · simp [Memory.read?, ih, show a ≠ i by omega]

/-- A write leaves every other cell alone. -/
theorem Memory.read?_write_ne (m : Memory) {i j : Nat} (v : Word) (h : j ≠ i) :
    (m.write i v).read? j = m.read? j := by
  induction m with
  | nil => simp [Memory.write, Memory.read?, h.symm]
  | cons p m ih =>
    obtain ⟨a, x⟩ := p
    simp only [Memory.write]
    split
    · simp [Memory.read?, h.symm]
    · split
      · next _ h2 => subst h2; simp [Memory.read?, h.symm]
      · simp [Memory.read?, ih]

/-- The cells listed after a write are those listed before it and the one written. -/
theorem Memory.mem_write {m : Memory} {i : Nat} {v : Word} {p : Nat × Word} (h : p ∈ m.write i v) :
    p = (i, v) ∨ p ∈ m := by
  induction m with
  | nil => simpa [Memory.write] using h
  | cons q m ih =>
    obtain ⟨a, x⟩ := q
    simp only [Memory.write] at h
    split at h
    · simpa using h
    · split at h
      · rcases List.mem_cons.1 h with h | h
        · exact .inl h
        · exact .inr (List.mem_cons_of_mem _ h)
      · rcases List.mem_cons.1 h with h | h
        · exact .inr (h ▸ List.mem_cons_self)
        · exact (ih h).imp id (List.mem_cons_of_mem _)

/-- A write keeps the canonical form. -/
theorem Memory.wf_write {m : Memory} (h : m.wf) (i : Nat) (v : Word) : (m.write i v).wf := by
  induction m with
  | nil => simp [Memory.write]
  | cons q m ih =>
    obtain ⟨a, x⟩ := q
    rw [Memory.wf, List.pairwise_cons] at h
    simp only [Memory.write]
    split
    · next hi =>
      rw [Memory.wf, List.pairwise_cons, List.pairwise_cons]
      refine ⟨fun p hp => ?_, h⟩
      rcases List.mem_cons.1 hp with rfl | hp
      · exact hi
      · exact lt_trans hi (h.1 p hp)
    · split
      · next _ hi => subst hi; exact List.pairwise_cons.2 h
      · next h1 h2 =>
        refine List.pairwise_cons.2 ⟨fun p hp => ?_, ih h.2⟩
        rcases Memory.mem_write hp with rfl | hp
        · show a < i
          omega
        · exact h.1 p hp

/-- A listed cell of a canonical memory reads as it is listed. -/
theorem Memory.read?_of_mem {m : Memory} (h : m.wf) {p : Nat × Word} (hp : p ∈ m) : m.read? p.1 = some p.2 := by
  induction m with
  | nil => cases hp
  | cons q m ih =>
    rw [Memory.wf, List.pairwise_cons] at h
    rcases List.mem_cons.1 hp with rfl | hp
    · simp [Memory.read?]
    · simp [Memory.read?, (h.1 p hp).ne, ih h.2 hp]

/-- A cell that reads as written is listed. -/
theorem Memory.mem_of_read? {m : Memory} {i : Nat} {v : Word} (h : m.read? i = some v) : (i, v) ∈ m := by
  induction m with
  | nil => cases h
  | cons q m ih =>
    obtain ⟨a, x⟩ := q
    simp only [Memory.read?] at h
    split at h
    · next ha => subst ha; cases h; exact List.mem_cons_self
    · exact List.mem_cons_of_mem _ (ih h)

/-- Canonical memories that read the same are the same data. -/
theorem Memory.eq_of_read? {m m' : Memory} (h : m.wf) (h' : m'.wf) (hr : ∀ i, m.read? i = m'.read? i) : m = m' := by
  refine List.Perm.eq_of_pairwise (le := fun p q => p.1 < q.1) (fun a b _ _ hab hba => absurd hab (by omega)) h h' ?_
  refine (List.perm_ext_iff_of_nodup (h.imp fun hab hc => by simp [hc] at hab)
    (h'.imp fun hab hc => by simp [hc] at hab)).2 fun p => ⟨fun hp => ?_, fun hp => ?_⟩
  · exact Memory.mem_of_read? ((hr p.1).symm.trans (Memory.read?_of_mem h hp))
  · exact Memory.mem_of_read? ((hr p.1).trans (Memory.read?_of_mem h' hp))

/-- Writing what a cell already holds changes nothing. -/
theorem Memory.write_same {m : Memory} (h : m.wf) {i : Nat} {v : Word} (hr : m.read? i = some v) : m.write i v = m := by
  refine Memory.eq_of_read? (Memory.wf_write h i v) h fun j => ?_
  by_cases hj : j = i
  · subst hj; simp [hr]
  · exact Memory.read?_write_ne m v hj

/-- Both memories have their canonical form right after reset. -/
theorem reset_memories_wf : State.reset.val.wf ∧ State.reset.wrd.wf := ⟨List.Pairwise.nil, List.Pairwise.nil⟩

variable (s : State)

/-- What a read of `VAL` answers after a write to `VAL`. -/
theorem State.writeVal_readVal (i : Nat) (v : Value) (j : Nat) :
    (s.writeVal i v).readVal j = if j = i then v else s.readVal j := by
  by_cases h : j = i
  · subst h; simp [State.readVal]
  · simp [State.readVal, Memory.read?_write_ne _ _ h, h]

/-- What a read of `WRD` answers after a write to `WRD`. -/
theorem State.writeWrd_readWrd (j : Nat) (x : Word) (k : Nat) :
    (s.writeWrd j x).readWrd k = if k = j then x else s.readWrd k := by
  by_cases h : k = j
  · subst h; simp [State.readWrd]
  · simp [State.readWrd, Memory.read?_write_ne _ _ h, h]

end Sys2Proof.Machine
end

