-- ==== Sys2Proof/Laws/Arith.lean ====
section
/-! SUPPORT. The integer laws of spec/40_common_arithmetic.md for the shared arithmetic, and what a sum of fields is, bit by bit. -/

namespace Sys2Proof.Machine

/-- `bit_length(v)` is at most `k` exactly when `v < 2^k`: it is the least such `k` (R80). -/
theorem bitLength_le_iff (v : Value) (k : Nat) : bitLength v ≤ k ↔ v.toNat < 2 ^ k := by
  unfold bitLength
  split
  · next h => subst h; simp
  · next h =>
    have hv : v.toNat ≠ 0 := fun hc => h (BitVec.eq_of_toNat_eq (by simpa using hc))
    rw [Nat.add_one_le_iff, Nat.log2_lt hv]

/-- `bit_length` lies in 0 .. 64 (R80). -/
theorem bitLength_le_64 (v : Value) : bitLength v ≤ 64 := (bitLength_le_iff v 64).2 v.isLt

/-- For a legal width the two branches of the fit test are one comparison (R85). -/
theorem fits_iff {v : Value} {w : Nat} (hw : w ≤ 64) : fits v w = true ↔ v.toNat < 2 ^ w := by
  unfold fits Config.valueWidth
  split
  · next h => subst h; simpa using v.isLt
  · simp

/-- A value that fits has no bit at or above its width. -/
theorem getLsbD_of_fits {v : Value} {w k : Nat} (hw : w ≤ 64) (h : fits v w = true) (hk : w ≤ k) :
    v.getLsbD k = false := by
  rw [BitVec.getLsbD]
  exact Nat.testBit_lt_two_pow (lt_of_lt_of_le ((fits_iff hw).1 h) (Nat.pow_le_pow_right (by omega) hk))

/-- `mask(W)` is `2^W - 1` for every legal width (R89). -/
theorem mask_toNat {w : Nat} (hw : w ≤ 64) : (mask w).toNat = 2 ^ w - 1 := by
  unfold mask Config.wordSize
  split
  · next h => subst h; simp
  · have : 2 ^ w ≤ 2 ^ 64 := Nat.pow_le_pow_right (by omega) hw
    have : 0 < 2 ^ w := by positivity
    simp only [BitVec.toNat_ofNat]
    exact Nat.mod_eq_of_lt (by omega)

/-- The mask has its low `w` bits set and no other. -/
theorem mask_getLsbD {w : Nat} (hw : w ≤ 64) (k : Nat) : (mask w).getLsbD k = decide (k < w) := by
  rw [BitVec.getLsbD, mask_toNat hw, Nat.testBit_two_pow_sub_one]

/-- A cell index lies in the block's words exactly when its first bit lies below `N * W` (R82). -/
theorem lt_wordCount_iff (n w j : Nat) : j < wordCount n w ↔ 64 * j < n * w := by
  simp only [wordCount, ceilDiv, Config.wordSize]
  generalize n * w = a
  omega

/-- The word count is never larger than the count (R83). -/
theorem wordCount_le {n w : Nat} (hw : w ≤ 64) : wordCount n w ≤ n := by
  have : n * w ≤ n * 64 := Nat.mul_le_mul_left n hw
  simp only [wordCount, ceilDiv, Config.wordSize]
  generalize n * w = a at *
  omega

@[simp] theorem wordCount_zero_width (n : Nat) : wordCount n 0 = 0 := by simp [wordCount, ceilDiv]

@[simp] theorem wordCount_zero_count (w : Nat) : wordCount 0 w = 0 := by simp [wordCount, ceilDiv]

@[simp] theorem wordCount_full_width (n : Nat) : wordCount n 64 = n := by
  simp only [wordCount, ceilDiv, Config.wordSize]
  omega

/-- The cursor is its word's first position and its offset in that word (R44). -/
theorem cursor_eq (i w : Nat) : i * w = 64 * wordIndex i w + bitOffset i w := by
  simp only [wordIndex, bitOffset, bitCursor, Config.wordSize]
  omega

theorem bitOffset_lt (i w : Nat) : bitOffset i w < 64 := Nat.mod_lt _ (by decide)

theorem straddles_iff (i w : Nat) : straddles i w = true ↔ 64 < bitOffset i w + w := by
  simp [straddles, Config.wordSize]

/-- The end of a field of the block lies within the block's bits. -/
theorem field_end_le {i n : Nat} (w : Nat) (h : i < n) : i * w + w ≤ n * w := by
  have : (i + 1) * w ≤ n * w := Nat.mul_le_mul_right w h
  rwa [Nat.add_mul, Nat.one_mul] at this

/-- The first word of a field is one of the block's words (R47). -/
theorem wordIndex_lt {i n w : Nat} (h : i < n) (hw : w ≠ 0) : wordIndex i w < wordCount n w := by
  have h1 := field_end_le w h
  have h2 := cursor_eq i w
  rw [lt_wordCount_iff]
  omega

/-- The second word of a straddling field is one of the block's words (R47). -/
theorem wordIndex_succ_lt {i n w : Nat} (h : i < n) (hs : straddles i w = true) :
    wordIndex i w + 1 < wordCount n w := by
  have h1 := field_end_le w h
  have h2 := cursor_eq i w
  rw [straddles_iff] at hs
  rw [lt_wordCount_iff]
  omega

/-- The packed block's number stays below `2^(n*w)` (R115). -/
theorem blockNumber_lt {s : State} {w : Nat} (hw : w ≤ 64) {n : Nat}
    (hf : ∀ i < n, fits (s.readVal i) w = true) : blockNumber s w n < 2 ^ (n * w) := by
  induction n with
  | zero => simp [blockNumber]
  | succ k ih =>
    have h1 := ih fun i hi => hf i (by omega)
    have h2 := (fits_iff hw).1 (hf k (by omega))
    have h3 : ((s.readVal k).toNat + 1) * 2 ^ (k * w) ≤ 2 ^ w * 2 ^ (k * w) := Nat.mul_le_mul_right _ h2
    rw [blockNumber, Nat.add_mul k 1 w, Nat.pow_add, Nat.one_mul, Nat.mul_comm (2 ^ (k * w))]
    rw [Nat.add_mul, Nat.one_mul] at h3
    omega

/-- One more value in the block puts its bits above those already there. -/
theorem blockNumber_succ_testBit {s : State} {w : Nat} (hw : w ≤ 64) {k : Nat}
    (hf : ∀ i < k, fits (s.readVal i) w = true) (p : Nat) :
    (blockNumber s w (k + 1)).testBit p =
      ((blockNumber s w k).testBit p || (decide (k * w ≤ p) && (s.readVal k).getLsbD (p - k * w))) := by
  have h := blockNumber_lt hw hf
  rw [blockNumber, Nat.add_comm, Nat.mul_comm, Nat.testBit_two_pow_mul_add _ h, BitVec.getLsbD]
  by_cases hp : p < k * w
  · simp [hp, Nat.not_le.2 hp]
  · have : (blockNumber s w k).testBit p = false :=
      Nat.testBit_lt_two_pow (lt_of_lt_of_le h (Nat.pow_le_pow_right (by omega) (Nat.not_lt.1 hp)))
    simp [hp, Nat.not_lt.1 hp, this]

/-- Bit `k` of value `i` is bit `i*w + k` of the block's number (R41). -/
theorem blockNumber_testBit {s : State} {w : Nat} (hw : w ≤ 64) {n : Nat}
    (hf : ∀ i < n, fits (s.readVal i) w = true) {i k : Nat} (hi : i < n) (hk : k < w) :
    (blockNumber s w n).testBit (i * w + k) = (s.readVal i).getLsbD k := by
  induction n with
  | zero => omega
  | succ n ih =>
    rw [blockNumber_succ_testBit hw fun j hj => hf j (by omega)]
    by_cases hin : i = n
    · subst hin
      have : (blockNumber s w i).testBit (i * w + k) = false :=
        Nat.testBit_lt_two_pow (lt_of_lt_of_le (blockNumber_lt hw fun j hj => hf j (by omega))
          (Nat.pow_le_pow_right (by omega) (by omega)))
      simp [this]
    · have := field_end_le w (show i < n by omega)
      rw [ih (fun j hj => hf j (by omega)) (by omega)]
      simp [show ¬ n * w ≤ i * w + k by omega]

/-- Bit `p` of the buffer's number is the bit at global position `p` (R41). -/
theorem bufferNumber_testBit (s : State) (k p : Nat) :
    (bufferNumber s k).testBit p = (decide (p < 64 * k) && bufferBit s p) := by
  have hlt : ∀ k, bufferNumber s k < 2 ^ (64 * k) := by
    intro k
    induction k with
    | zero => simp [bufferNumber]
    | succ k ih =>
      have h2 := (s.readWrd k).isLt
      have h3 : ((s.readWrd k).toNat + 1) * 2 ^ (64 * k) ≤ 2 ^ 64 * 2 ^ (64 * k) := Nat.mul_le_mul_right _ h2
      rw [bufferNumber, Nat.mul_add, Nat.pow_add, Nat.mul_one, Nat.mul_comm (2 ^ (64 * k)) (2 ^ 64)]
      rw [Nat.add_mul, Nat.one_mul] at h3
      simp only [Config.wordSize]
      omega
  induction k with
  | zero => simp [bufferNumber]
  | succ k ih =>
    rw [bufferNumber, Nat.add_comm, Nat.mul_comm, Nat.testBit_two_pow_mul_add _ (hlt k)]
    simp only [Config.wordSize, ih, bufferBit, BitVec.getLsbD]
    by_cases hp : p < 64 * k
    · simp [hp, show p < 64 * (k + 1) by omega]
    · simp only [hp, if_false]
      by_cases hq : p < 64 * (k + 1)
      · simp [hq, show p / 64 = k by omega, show p % 64 = p - 64 * k by omega]
      · simp only [hq, decide_false, Bool.false_and]
        exact Nat.testBit_lt_two_pow (lt_of_lt_of_le (s.readWrd k).isLt (Nat.pow_le_pow_right (by omega) (by omega)))

end Sys2Proof.Machine
end

