-- ==== Sys2Proof/Laws/Pack.lean ====
section
/-! SUPPORT. What PACK's loops leave: which fields they touch, which cells, and every bit of the words. -/

namespace Sys2Proof.Machine

/-- All values fit exactly when each one does (R112). -/
theorem allFit_iff (s : State) (w n : Nat) : allFit s w n = true ↔ ∀ i < n, fits (s.readVal i) w = true := by
  induction n with
  | zero => simp [allFit]
  | succ k ih =>
    simp only [allFit, Bool.and_eq_true, ih]
    refine ⟨fun h i hi => ?_, fun h => ⟨fun i hi => h i (by omega), h k (by omega)⟩⟩
    by_cases hk : i = k
    · exact hk ▸ h.2
    · exact h.1 i (by omega)

/-- `WRD` is all that `t` may differ from `s` in. -/
def OnlyWrd (s t : State) : Prop := t = { s with wrd := t.wrd }

theorem OnlyWrd.refl (s : State) : OnlyWrd s s := rfl

theorem OnlyWrd.trans {s t u : State} (h : OnlyWrd s t) (h' : OnlyWrd t u) : OnlyWrd s u := by
  unfold OnlyWrd at *
  rw [h'] ; rw [h]

theorem OnlyWrd.writeWrd (s : State) (j : Nat) (x : Word) : OnlyWrd s (s.writeWrd j x) := rfl

theorem OnlyWrd.readVal {s t : State} (h : OnlyWrd s t) (i : Nat) : t.readVal i = s.readVal i := by
  rw [h]; rfl

theorem OnlyWrd.zeroWords (k : Nat) (s : State) : OnlyWrd s (zeroWords k s) := by
  induction k with
  | zero => exact .refl s
  | succ k ih => exact ih.trans (.writeWrd _ _ _)

theorem OnlyWrd.packValue (w i : Nat) (s : State) : OnlyWrd s (packValue w i s) := by
  simp only [Machine.packValue, orWord]
  split
  · exact (OnlyWrd.writeWrd _ _ _).trans (.writeWrd _ _ _)
  · exact .writeWrd _ _ _

theorem OnlyWrd.packValues (w k : Nat) (s : State) : OnlyWrd s (packValues w k s) := by
  induction k with
  | zero => exact .refl s
  | succ k ih => exact ih.trans (.packValue _ _ _)

theorem OnlyWrd.packWords (w n : Nat) (s : State) : OnlyWrd s (packWords w n s) := by
  unfold Machine.packWords
  split
  · exact .zeroWords _ _
  · exact (OnlyWrd.zeroWords _ _).trans (.packValues _ _ _)

/-- Every word below `k` is zeroed and no other is touched (R114). -/
theorem zeroWords_readWrd (k : Nat) (s : State) (j : Nat) :
    (zeroWords k s).readWrd j = if j < k then 0 else s.readWrd j := by
  induction k with
  | zero => simp [zeroWords]
  | succ k ih =>
    rw [zeroWords, State.writeWrd_readWrd, ih]
    by_cases h : j = k
    · simp [h]
    · simp [h, show j < k + 1 ↔ j < k by omega]

/-- One value's step, bit by bit: the bits of the value, from its cursor on, are added to those there (R113). -/
theorem packValue_bit {w : Nat} (hw : w ≤ 64) {i : Nat} {s : State} (hf : fits (s.readVal i) w = true) (j b : Nat)
    (hb : b < 64) :
    ((packValue w i s).readWrd j).getLsbD b = ((s.readWrd j).getLsbD b ||
      (decide (i * w ≤ 64 * j + b) && (s.readVal i).getLsbD (64 * j + b - i * w))) := by
  have hc := cursor_eq i w
  have ho := bitOffset_lt i w
  have hz : ∀ k, w ≤ k → (s.readVal i).getLsbD k = false := fun k hk => getLsbD_of_fits hw hf hk
  have hs := straddles_iff i w
  simp only [packValue, orWord, loPart, hiPart, Config.wordSize]
  split
  · next h =>
    rw [hs] at h
    simp only [State.writeWrd_readWrd]
    by_cases h1 : j = wordIndex i w
    · subst h1
      simp only [show ¬ wordIndex i w = wordIndex i w + 1 by omega, if_true, if_false, BitVec.getLsbD_or,
        BitVec.getLsbD_shiftLeft, hb, decide_true, Bool.true_and]
      by_cases h2 : b < bitOffset i w
      · simp [h2, show ¬ i * w ≤ 64 * wordIndex i w + b by omega]
      · simp [h2, show i * w ≤ 64 * wordIndex i w + b by omega,
          show 64 * wordIndex i w + b - i * w = b - bitOffset i w by omega]
    · by_cases h2 : j = wordIndex i w + 1
      · subst h2
        simp only [show ¬ wordIndex i w + 1 = wordIndex i w by omega, if_true, if_false, BitVec.getLsbD_or,
          BitVec.getLsbD_ushiftRight]
        simp [show i * w ≤ 64 * (wordIndex i w + 1) + b by omega,
          show 64 * (wordIndex i w + 1) + b - i * w = 64 - bitOffset i w + b by omega]
      · simp only [h1, h2, if_false]
        by_cases h3 : i * w ≤ 64 * j + b
        · simp [hz (64 * j + b - i * w) (by omega)]
        · simp [h3]
  · next h =>
    rw [hs] at h
    simp only [State.writeWrd_readWrd]
    by_cases h1 : j = wordIndex i w
    · subst h1
      simp only [if_true, BitVec.getLsbD_or, BitVec.getLsbD_shiftLeft, hb, decide_true, Bool.true_and]
      by_cases h2 : b < bitOffset i w
      · simp [h2, show ¬ i * w ≤ 64 * wordIndex i w + b by omega]
      · simp [h2, show i * w ≤ 64 * wordIndex i w + b by omega,
          show 64 * wordIndex i w + b - i * w = b - bitOffset i w by omega]
    · simp only [h1, if_false]
      by_cases h3 : i * w ≤ 64 * j + b
      · simp [hz (64 * j + b - i * w) (by omega)]
      · simp [h3]

/-- The values' steps, bit by bit: the bits of the block's number are added to those there (R90, R113). -/
theorem packValues_bit {w : Nat} (hw : w ≤ 64) {n : Nat} {s : State} (hf : ∀ i < n, fits (s.readVal i) w = true)
    (j b : Nat) (hb : b < 64) :
    ((packValues w n s).readWrd j).getLsbD b =
      ((s.readWrd j).getLsbD b || (blockNumber s w n).testBit (64 * j + b)) := by
  induction n with
  | zero => simp [packValues, blockNumber]
  | succ k ih =>
    have hv := (OnlyWrd.packValues w k s).readVal k
    have hf' : ∀ i < k, fits (s.readVal i) w = true := fun i hi => hf i (by omega)
    rw [packValues, packValue_bit hw (by rw [hv]; exact hf k (by omega)) j b hb, ih hf', hv,
      blockNumber_succ_testBit hw hf', Bool.or_assoc]

/-- The block's number does not depend on `WRD`. -/
theorem OnlyWrd.blockNumber {s t : State} (h : OnlyWrd s t) (w n : Nat) : blockNumber t w n = blockNumber s w n := by
  induction n with
  | zero => rfl
  | succ k ih => rw [Machine.blockNumber, Machine.blockNumber, ih, h.readVal]

/-- PACK's words are the block's number, cut into words (R115). -/
theorem packWords_bit {w n : Nat} (hw : w ≤ 64) {s : State} (hf : ∀ i < n, fits (s.readVal i) w = true) {j : Nat}
    (hj : j < wordCount n w) {b : Nat} (hb : b < 64) :
    ((packWords w n s).readWrd j).getLsbD b = (blockNumber s w n).testBit (64 * j + b) := by
  have hz := OnlyWrd.zeroWords (wordCount n w) s
  unfold packWords
  split
  · next h => subst h; simp at hj
  · rw [packValues_bit hw (fun i hi => by rw [hz.readVal]; exact hf i hi) j b hb, zeroWords_readWrd, if_pos hj,
      hz.blockNumber]
    simp

/-- Writing to words below `k` leaves the cells of `WRD` from `k` on as they were. -/
def KeepsFrom (k : Nat) (s t : State) : Prop := ∀ j, k ≤ j → t.wrd.read? j = s.wrd.read? j

theorem KeepsFrom.writeWrd {k j : Nat} (h : j < k) (s : State) (x : Word) : KeepsFrom k s (s.writeWrd j x) :=
  fun a ha => Memory.read?_write_ne _ _ (by omega)

theorem KeepsFrom.trans {k : Nat} {s t u : State} (h : KeepsFrom k s t) (h' : KeepsFrom k t u) : KeepsFrom k s u :=
  fun j hj => (h' j hj).trans (h j hj)

theorem KeepsFrom.zeroWords {k n : Nat} (h : n ≤ k) (s : State) : KeepsFrom k s (zeroWords n s) := by
  induction n with
  | zero => exact fun _ _ => rfl
  | succ n ih => exact (ih (by omega)).trans (.writeWrd (by omega) _ _)

theorem KeepsFrom.packValue {n w i : Nat} (hw : w ≠ 0) (hi : i < n) (s : State) :
    KeepsFrom (wordCount n w) s (packValue w i s) := by
  simp only [Machine.packValue, orWord]
  split
  · next h => exact (KeepsFrom.writeWrd (wordIndex_lt hi hw) _ _).trans (.writeWrd (wordIndex_succ_lt hi h) _ _)
  · exact .writeWrd (wordIndex_lt hi hw) _ _

theorem KeepsFrom.packValues {n w k : Nat} (hw : w ≠ 0) (hk : k ≤ n) (s : State) :
    KeepsFrom (wordCount n w) s (packValues w k s) := by
  induction k with
  | zero => exact fun _ _ => rfl
  | succ k ih => exact (ih (by omega)).trans (.packValue hw (by omega) _)

/-- PACK touches no cell of `WRD` beyond its own words (R117). -/
theorem packWords_read? (w n : Nat) (s : State) {j : Nat} (hj : wordCount n w ≤ j) :
    (packWords w n s).wrd.read? j = s.wrd.read? j := by
  have : KeepsFrom (wordCount n w) s (packWords w n s) := by
    unfold packWords
    split
    · exact .zeroWords (le_refl _) _
    · next h => exact (KeepsFrom.zeroWords (le_refl _) _).trans (.packValues h (le_refl _) _)
  exact this j hj

/-- Everything PACK can do when it answers a next state (R9, R110). -/
theorem execPack_next {w : BitWidth} {n : Count} {s t : State} (h : execPack w n s = .next t) :
    n.toNat ≤ s.caps.val ∧
    ((64 < w.toNat ∧ t = raise .invalidWidth s) ∨
      (w.toNat ≤ 64 ∧ wordCount n.toNat w.toNat ≤ s.caps.wrd ∧
        ((allFit s w.toNat n.toNat = false ∧ t = raise .bitWidthOverflow s) ∨
          ((∀ i < n.toNat, fits (s.readVal i) w.toNat = true) ∧
            t = complete (((packWords w.toNat n.toNat s).setWlen
              (BitVec.ofNat 32 (wordCount n.toNat w.toNat))).setHdr (headerOf w n)))))) := by
  unfold execPack at h
  split at h
  · cases h
  · next hc =>
    refine ⟨by omega, ?_⟩
    split at h
    · next hw => exact .inl ⟨by simpa [widthIllegal] using hw, by simpa using h.symm⟩
    · next hw =>
      split at h
      · cases h
      · next hc' =>
        refine .inr ⟨by simpa [widthIllegal] using hw, by omega, ?_⟩
        split at h
        · next hf => exact .inl ⟨hf, by simpa using h.symm⟩
        · next hf => exact .inr ⟨(allFit_iff _ _ _).1 (by simpa using hf), by simpa using h.symm⟩

/-- PACK completes when the width is legal, the cells exist and every value fits (R110). -/
theorem execPack_ok {w : BitWidth} {n : Count} {s : State} (hw : w.toNat ≤ 64) (hr : s.HasRoom n.toNat w.toNat)
    (hf : ∀ i < n.toNat, fits (s.readVal i) w.toNat = true) :
    execPack w n s = .next (complete (((packWords w.toNat n.toNat s).setWlen
      (BitVec.ofNat 32 (wordCount n.toNat w.toNat))).setHdr (headerOf w n))) := by
  have hf := (allFit_iff _ _ _).2 hf
  unfold execPack
  simp [widthIllegal, Config.valueWidth, Nat.not_lt.2 hw, Nat.not_lt.2 hr.1, Nat.not_lt.2 hr.2, hf]

end Sys2Proof.Machine
end

