-- ==== Sys2Proof/Laws/Selw.lean ====
section
/-! SUPPORT. What the block maximum is, and everything SELW can do. -/

namespace Sys2Proof.Machine

/-- No value of the block is above its maximum (R92). -/
theorem readVal_le_blockMax (s : State) {n i : Nat} (h : i < n) : (s.readVal i).toNat ≤ (blockMax s n).toNat := by
  induction n with
  | zero => omega
  | succ k ih =>
    simp only [blockMax, BitVec.lt_def]
    by_cases hk : i = k
    · subst hk; split <;> omega
    · have := ih (by omega)
      split <;> omega

/-- The maximum of a non-empty block is one of its values (R92). -/
theorem blockMax_mem (s : State) {n : Nat} (h : n ≠ 0) : ∃ i < n, s.readVal i = blockMax s n := by
  induction n with
  | zero => exact absurd rfl h
  | succ k ih =>
    simp only [blockMax]
    split
    · exact ⟨k, by omega, rfl⟩
    · next hm =>
      by_cases hk : k = 0
      · subst hk
        refine ⟨0, by omega, ?_⟩
        simp only [blockMax, BitVec.lt_def] at hm ⊢
        exact BitVec.eq_of_toNat_eq (by simp at hm ⊢; omega)
      · obtain ⟨i, hi, he⟩ := ih hk
        exact ⟨i, by omega, he⟩

/-- A width fits the block's maximum exactly when it fits every value. -/
theorem blockMax_lt_iff (s : State) (n w : Nat) :
    (blockMax s n).toNat < 2 ^ w ↔ ∀ i < n, (s.readVal i).toNat < 2 ^ w := by
  refine ⟨fun h i hi => lt_of_le_of_lt (readVal_le_blockMax s hi) h, fun h => ?_⟩
  by_cases hn : n = 0
  · subst hn; simp [blockMax]
  · obtain ⟨i, hi, he⟩ := blockMax_mem s hn
    exact he ▸ h i hi

/-- Everything SELW can do when it answers a next state: it raises `InvalidInput`, or it writes `WRES` (R9, R100). -/
theorem execSelw_next {n : Count} {x : BitWidth} {s t : State} (h : execSelw n x s = .next t) :
    (n.toNat = 0 ∧ t = raise .invalidInput s) ∨
    (n.toNat ≠ 0 ∧ n.toNat ≤ s.caps.val ∧
      t = complete (s.setWres (BitVec.ofNat 8 (bitLength (blockMax s n.toNat))))) := by
  unfold execSelw at h
  split at h
  · cases h
  · next hc =>
    split at h
    · next hn => exact .inl ⟨hn, by simpa using h.symm⟩
    · next hn => exact .inr ⟨hn, by omega, by simpa using h.symm⟩

end Sys2Proof.Machine
end

