-- ==== Sys2Proof/Laws/Unpack.lean ====
section
/-! SUPPORT. What UNPACK reconstructs, bit by bit, and everything it can do. -/

namespace Sys2Proof.Machine

/-- Every bit of a reconstructed value: the field's bits below the width, 0 from there on (R133, R134). -/
theorem unpackValue_bit {w : Nat} (hw : w ≤ 64) (s : State) (i k : Nat) :
    (unpackValue s w i).getLsbD k = (decide (k < w) && bufferBit s (i * w + k)) := by
  have hc := cursor_eq i w
  have ho := bitOffset_lt i w
  have hs := straddles_iff i w
  have key : k < w → (fieldBits s w i).getLsbD k = bufferBit s (i * w + k) := by
    intro hk
    simp only [fieldBits, nextPart, bufferBit, Config.wordSize]
    split
    · next h =>
      rw [hs] at h
      simp only [BitVec.getLsbD_or, BitVec.getLsbD_ushiftRight, BitVec.getLsbD_shiftLeft]
      by_cases h1 : bitOffset i w + k < 64
      · rw [show (i * w + k) / 64 = wordIndex i w by omega, show (i * w + k) % 64 = bitOffset i w + k by omega]
        simp [show k < 64 - bitOffset i w by omega]
      · rw [show (i * w + k) / 64 = wordIndex i w + 1 by omega,
          show (i * w + k) % 64 = k - (64 - bitOffset i w) by omega]
        simp [show ¬ k < 64 - bitOffset i w by omega, show k < 64 by omega,
          BitVec.getLsbD_of_ge (s.readWrd (wordIndex i w)) (bitOffset i w + k) (by omega)]
    · next h =>
      rw [hs] at h
      rw [BitVec.getLsbD_ushiftRight, show (i * w + k) / 64 = wordIndex i w by omega,
        show (i * w + k) % 64 = bitOffset i w + k by omega]
  unfold unpackValue Config.wordSize
  split
  · next h => subst h; simp
  · split
    · next h =>
      subst h
      by_cases hk : k < 64
      · rw [key hk, decide_eq_true hk, Bool.true_and]
      · simp [hk, BitVec.getLsbD_of_ge _ _ (Nat.not_lt.1 hk)]
    · rw [BitVec.getLsbD_and, mask_getLsbD hw]
      by_cases hk : k < w
      · simp [hk, key hk]
      · simp [hk]

/-- A reconstructed value fits its width (R134). -/
theorem unpackValue_fits {w : Nat} (hw : w ≤ 64) (s : State) (i : Nat) : fits (unpackValue s w i) w = true := by
  rw [fits_iff hw]
  refine Nat.lt_pow_two_of_testBit _ fun k hk => ?_
  have := unpackValue_bit hw s i k
  rw [BitVec.getLsbD] at this
  simp [this, Nat.not_lt.2 hk]

/-- `VAL` is all that `t` may differ from `s` in. -/
def OnlyVal (s t : State) : Prop := t = { s with val := t.val }

theorem OnlyVal.refl (s : State) : OnlyVal s s := rfl

theorem OnlyVal.trans {s t u : State} (h : OnlyVal s t) (h' : OnlyVal t u) : OnlyVal s u := by
  unfold OnlyVal at *
  rw [h']; rw [h]

theorem OnlyVal.readWrd {s t : State} (h : OnlyVal s t) (j : Nat) : t.readWrd j = s.readWrd j := by
  rw [h]; rfl

theorem OnlyVal.unpackValue {s t : State} (h : OnlyVal s t) (w i : Nat) :
    unpackValue t w i = unpackValue s w i := by
  simp only [Machine.unpackValue, fieldBits, h.readWrd]

theorem OnlyVal.unpackValues (w k : Nat) (s : State) : OnlyVal s (unpackValues w k s) := by
  induction k with
  | zero => exact .refl s
  | succ k ih => exact ih.trans rfl

/-- UNPACK's values: the reconstructed ones below the count, the rest as they were (R130, R139). -/
theorem unpackValues_readVal (w n : Nat) (s : State) (i : Nat) :
    (unpackValues w n s).readVal i = if i < n then unpackValue s w i else s.readVal i := by
  induction n with
  | zero => simp [unpackValues]
  | succ k ih =>
    rw [unpackValues, State.writeVal_readVal, ih, (OnlyVal.unpackValues w k s).unpackValue]
    by_cases h : i = k
    · simp [h]
    · simp [h, show i < k + 1 ↔ i < k by omega]

/-- UNPACK touches no cell of `VAL` from the count on (R139). -/
theorem unpackValues_read? (w n : Nat) (s : State) {i : Nat} (hi : n ≤ i) :
    (unpackValues w n s).val.read? i = s.val.read? i := by
  induction n with
  | zero => rfl
  | succ k ih => exact (Memory.read?_write_ne _ _ (by omega)).trans (ih (by omega))

/-- Everything UNPACK can do when it answers a next state (R9, R130). -/
theorem execUnpack_next {w : BitWidth} {n : Count} {s t : State} (h : execUnpack w n s = .next t) :
    n.toNat ≤ s.caps.val ∧
    ((64 < w.toNat ∧ t = raise .invalidWidth s) ∨
      (w.toNat ≤ 64 ∧ wordCount n.toNat w.toNat ≤ s.caps.wrd ∧
        ((s.wlen.toNat ≠ wordCount n.toNat w.toNat ∧ t = raise .malformedBuffer s) ∨
          (s.wlen.toNat = wordCount n.toNat w.toNat ∧ t = complete (unpackValues w.toNat n.toNat s))))) := by
  unfold execUnpack at h
  split at h
  · cases h
  · next hc =>
    refine ⟨by omega, ?_⟩
    split at h
    · next hw => exact .inl ⟨by simpa [widthIllegal] using hw, by simpa using h.symm⟩
    · next hw =>
      split at h
      · cases h
      · next hc' =>
        refine .inr ⟨by simpa [widthIllegal] using hw, by omega, ?_⟩
        split at h
        · next hl => exact .inl ⟨hl, by simpa using h.symm⟩
        · next hl => exact .inr ⟨by omega, by simpa using h.symm⟩

/-- UNPACK completes when the width is legal, the length is right and the cells exist (R130). -/
theorem execUnpack_ok {w : BitWidth} {n : Count} {s : State} (hw : w.toNat ≤ 64) (hr : s.HasRoom n.toNat w.toNat)
    (hl : s.wlen.toNat = wordCount n.toNat w.toNat) :
    execUnpack w n s = .next (complete (unpackValues w.toNat n.toNat s)) := by
  unfold execUnpack
  simp [widthIllegal, Config.valueWidth, Nat.not_lt.2 hw, Nat.not_lt.2 hr.1, Nat.not_lt.2 hr.2, hl]

end Sys2Proof.Machine
end

