-- ==== Sys2Proof/Laws/Step.lean ====
section
/-! SUPPORT. Everything one step can do, said once; the words of the encoding, field by field. -/

namespace Sys2Proof.Machine

/-- Everything one ENGINE step can do when it answers a next state: nothing, with no command pending, or the pending
command, whose end then leaves none pending. -/
theorem step_next {s t : State} (h : step s = .next t) :
    (s.pending = false ∧ t = s) ∨
    (s.pending = true ∧ ∃ i u, decode s.cmd = .ok i ∧ exec i s = .next u ∧ t = u.retire) := by
  unfold step at h
  split at h
  · next hp =>
    split at h
    · cases h
    · next i hi =>
      split at h
      · next u hu => exact .inr ⟨hp, i, u, hi, hu, by simpa using h.symm⟩
      · cases h
      · cases h
  · next hp => exact .inl ⟨by simpa using hp, by simpa using h.symm⟩

/-- No command faults (R172). -/
theorem exec_ne_fault (i : Instr) (s : State) (r : Fault) : exec i s ≠ .fault r := by
  cases i <;> simp only [exec, execSelw, execPack, execUnpack] <;> intro h <;> (repeat' split at h) <;> cases h

/-- What `decode` answers, by the `op` field (R62, R70). -/
theorem decode_of_op (c : Command) :
    (cmdOp c = 0 → decode c = .ok (.selw (cmdCount c) (cmdWidth c))) ∧
    (cmdOp c = 1 → decode c = .ok (.pack (cmdWidth c) (cmdCount c))) ∧
    (cmdOp c = 2 → decode c = .ok (.unpack (cmdWidth c) (cmdCount c))) ∧
    (cmdOp c = 3 → decode c = .error .reservedOp) := by
  refine ⟨?_, ?_, ?_, ?_⟩ <;> intro h <;> simp [decode, h]

end Sys2Proof.Machine
end

