-- ==== Sys2Proof/Laws/PerInstr.lean ====
section
/-! SUPPORT. The per-instruction family `EncodedFields`: each field of a command's word is the command's own (R61), one lemma a
constructor. -/

namespace Sys2Proof.Laws

/-- The three fields read back from a command's word are the ones it was written from (R61). -/
def EncodedFields.Statement (i : Instr) : Prop :=
  cmdOp (encode i) = i.op ∧ cmdCount (encode i) = i.count ∧ cmdWidth (encode i) = i.bitWidth

/-- Reading the fields of three appended ones gives each back. -/
theorem fields_of_append (o : BitVec 2) (n : Count) (w : BitWidth) :
    cmdOp (o ++ n ++ w) = o ∧ cmdCount (o ++ n ++ w) = n ∧ cmdWidth (o ++ n ++ w) = w := by
  refine ⟨?_, ?_, ?_⟩ <;> apply BitVec.eq_of_getLsbD_eq <;> intro k hk
  · simp only [cmdOp, BitVec.getLsbD_extractLsb', BitVec.getLsbD_append, hk]
    simp [show ¬ 40 + k < 8 by omega, show ¬ 40 + k - 8 < 32 by omega, show 40 + k - 8 - 32 = k by omega]
  · simp only [cmdCount, BitVec.getLsbD_extractLsb', BitVec.getLsbD_append, hk]
    simp [show 8 + k - 8 = k by omega, hk]
  · simp only [cmdWidth, BitVec.getLsbD_extractLsb', BitVec.getLsbD_append, hk]
    simp [hk]

theorem EncodedFields.selw (n : Count) (x : BitWidth) : EncodedFields.Statement (.selw n x) :=
  fields_of_append 0 n x

theorem EncodedFields.pack (w : BitWidth) (n : Count) : EncodedFields.Statement (.pack w n) :=
  fields_of_append 1 n w

theorem EncodedFields.unpack (w : BitWidth) (n : Count) : EncodedFields.Statement (.unpack w n) :=
  fields_of_append 2 n w

end Sys2Proof.Laws
end

