-- ==== Sys2Proof/Tests/Slice0.lean ====
section
/-! SUPPORT. The model's own tests: the checks of WellFormed refuse, words written out from format C decode, each command on one
small state (expected results from spec/95_test_vectors.md), and for every statement with hypotheses a state that meets
them. -/

namespace Sys2Proof.Tests

open Sys2Proof.Machine

-- One theorem after another: each waiting `decide` holds a thread of its own, and the package's compile runs out of them.
set_option Elab.async false

/-- A memory that holds `xs` from cell `a` on. -/
def cells : Nat → List Word → Memory
  | _, [] => []
  | a, x :: xs => (a, x) :: cells (a + 1) xs

/-- The reset state with `vs` in `VAL`, `ws` in `WRD` and `k` in `WLEN`. -/
def load (vs : List Value) (ws : List Word) (k : BitVec 32) : State :=
  { State.reset with val := cells 0 vs, wrd := cells 0 ws, wlen := k }

/-- The state a step leaves, if it leaves one. -/
def after : Host.Outcome State Fault Refusal → Option State
  | .next t => some t
  | .fault _ => none
  | .refused _ => none

/-- The reason a step is refused, if it is. -/
def refusal : Host.Outcome State Fault Refusal → Option Refusal
  | .next _ => none
  | .fault _ => none
  | .refused r => some r

/-- What HOST reads, if it reads anything. -/
def readOf : Host.Outcome Nat Fault Refusal → Option Nat
  | .next x => some x
  | .fault _ => none
  | .refused _ => none

/-! ## The checks refuse ill-formed terms, one for each check -/

theorem test_selw_count_too_wide : (Asm.selw (2 ^ 32)).wellFormed = false := by decide
theorem test_pack_width_too_wide : (Asm.pack 256 1).wellFormed = false := by decide
theorem test_pack_count_too_wide : (Asm.pack 1 (2 ^ 32)).wellFormed = false := by decide
theorem test_unpack_width_too_wide : (Asm.unpack 256 1).wellFormed = false := by decide
theorem test_unpack_count_too_wide : (Asm.unpack 1 (2 ^ 32)).wellFormed = false := by decide
theorem test_packa_count_too_wide : (Asm.packa (2 ^ 32)).wellFormed = false := by decide
theorem test_pack_255_is_well_formed : (Asm.pack 255 4294967295).wellFormed = true := by decide
theorem test_no_val_cells : (Caps.mk 0 1).wellFormed = false := by decide
theorem test_too_many_val_cells : (Caps.mk (2 ^ 32) 1).wellFormed = false := by decide
theorem test_no_wrd_cells : (Caps.mk 1 0).wellFormed = false := by decide
theorem test_values_wider_than_words : Config.widthsWellFormed 65 64 = false := by decide
theorem test_widths_of_the_block : Config.widthsWellFormed Config.valueWidth Config.wordSize = true := by decide

/-! ## Words written out from format C: op, count, bit_width (spec/30_encoding.md R61, R62) -/

theorem test_decode_selw : decode 0b00_00000000000000000000000000001000_11111111 = .ok (.selw 8 255) := rfl
theorem test_decode_pack : decode 0b01_00000000000000000000000000001101_00000101 = .ok (.pack 5 13) := rfl
theorem test_decode_unpack : decode 0b10_10000000000000000000000000000001_01000000 = .ok (.unpack 64 2147483649) := rfl
theorem test_decode_reserved : decode 0b11_00000000000000000000000000000000_00000000 = .error .reservedOp := rfl
theorem test_table_word : decodeTableWord 48 0x2FFFFFFFF04 = some (.unpack 4 4294967295) := by decide +kernel
theorem test_table_word_beyond_cmd : decodeTableWord 48 0x40000000000 = none := by decide +kernel
/-- Vector H1. -/
theorem test_header_bytes : headerBytes (headerOf 4 8) = [0x04, 0x08, 0x00, 0x00, 0x00] := by decide +kernel

/-! ## One step of each command (vectors S19, S21, P5, P9, UN10, UN21) -/

theorem test_selw_maximum_in_the_middle :
    (after (exec (.selw 3 0) (load [5, 1099511627776, 7] [] 0))).map (fun t => (t.wres, t.status)) =
      some (41, 0) := by decide +kernel
theorem test_selw_ignores_bit_width :
    (after (step ((load [3, 15, 0, 7, 1, 12, 4, 9] [] 0).withFetchWord 48 0x000000008FF))).map
      (fun t => (t.wres, t.status, t.pending)) = some (4, 0, false) := by decide +kernel
theorem test_pack_two_straddles :
    (after (exec (.pack 63 3) (load [0x7FFFFFFFFFFFFFFF, 1, 0x7FFFFFFFFFFFFFFF] [] 9))).map
      (fun t => (t.wrd, t.wlen, t.hdr)) =
    some (cells 0 [0xFFFFFFFFFFFFFFFF, 0xC000000000000000, 0x1FFFFFFFFFFFFFFF], 3, 0x000000033F) := by decide +kernel
theorem test_pack_straddle_splits_the_value :
    (after (exec (.pack 3 22) (load [5, 2, 7, 0, 1, 6, 3, 4, 5, 2, 7, 0, 1, 6, 3, 4, 5, 2, 7, 0, 1, 6]
      [0xFFFFFFFFFFFFFFFF, 0xFFFFFFFFFFFFFFFF, 0xFFFFFFFFFFFFFFFF] 0))).map (fun t => t.wrd) =
    some (cells 0 [0x11D58F11D58F11D5, 0x0000000000000003, 0xFFFFFFFFFFFFFFFF]) := by decide +kernel
theorem test_unpack_ignores_padding :
    (after (exec (.unpack 5 13) (load [] [0xFFFFFFFFFFFFFFFF, 0xFFFFFFFFFFFFFFFF] 2))).map (fun t => t.val) =
    some (cells 0 (List.replicate 13 0x1F)) := by decide +kernel
theorem test_unpack_other_slices :
    (after (exec (.unpack 8 4) (load [0, 0, 0, 0, 77] [0x0000000094C170F3] 1))).map (fun t => t.val) =
    some (cells 0 [0xF3, 0x70, 0xC1, 0x94, 77]) := by decide +kernel

/-! ## The machine and HOST -/

theorem test_reserved_op_is_refused : refusal (step (State.reset.withFetchWord 48 0x30000000000)) = some .reservedOp := by
  decide +kernel
theorem test_host_cell_beyond_the_end :
    after (hostAct (.writeVal 4 1) { State.reset with caps := { val := 4, wrd := 4 } }) = none := by decide +kernel
/-- G5's second instance: reset after the first ran leaves the first alone, and both draw apart. -/
theorem test_units_draw_apart : ((System.reset 2).get 0).drawUnit ≠ ((System.reset 2).get 1).drawUnit := by decide +kernel

/-! ## States that meet the statements' hypotheses -/

/-- A good block of two values with room exactly for it: two cells of `VAL`, one word of `WRD`. -/
def tight : State := { load [3, 15] [0xF3] 1 with caps := { val := 2, wrd := 1 } }

/-- `tight` with a command pending. -/
def pendingState (c : Command) : State := tight.issue c

theorem witness_DecodeOfEncode : (Instr.selw 4294967295 255).wellFormed = true := rfl
theorem witness_EncodeOfDecoded : decode 0x2FFFFFFFFFF = .ok (.unpack 255 4294967295) := rfl
theorem witness_OpcodeMapDecodes : decode 0x1FFFFFFFFFF = .ok (.pack 255 4294967295) := rfl
theorem witness_EveryCommandValueHasItsPlace_selw :
    (pendingState 0x000000000FF).pending = true ∧ cmdOp (pendingState 0x000000000FF).cmd = 0 ∧
    cmdCount (pendingState 0x000000000FF).cmd = 0 := by decide +kernel
theorem witness_EveryCommandValueHasItsPlace_pack :
    (pendingState 0x10000000141).pending = true ∧ cmdOp (pendingState 0x10000000141).cmd = 1 ∧
    (cmdCount (pendingState 0x10000000141).cmd).toNat ≤ (pendingState 0x10000000141).caps.val ∧
    65 ≤ (cmdWidth (pendingState 0x10000000141).cmd).toNat := by decide +kernel
theorem witness_EveryCommandValueHasItsPlace_unpack :
    (pendingState 0x200000001FF).pending = true ∧ cmdOp (pendingState 0x200000001FF).cmd = 2 ∧
    (cmdCount (pendingState 0x200000001FF).cmd).toNat ≤ (pendingState 0x200000001FF).caps.val ∧
    65 ≤ (cmdWidth (pendingState 0x200000001FF).cmd).toNat := by decide +kernel
theorem witness_EveryCommandValueHasItsPlace_reserved :
    (pendingState 0x30000000000).pending = true ∧ cmdOp (pendingState 0x30000000000).cmd = 3 := by decide +kernel
theorem witness_HeaderSerialisesToFiveBytes : headerOfBytes [0x40, 0xFF, 0xFF, 0xFF, 0xFF] = some 0xFFFFFFFF40 := by
  decide +kernel
theorem witness_WrittenFormAssembles : 255 < 2 ^ 8 ∧ 2 ^ 32 - 1 < 2 ^ 32 := by decide
theorem witness_WrittenFormAssembles_none : 2 ^ 8 ≤ 256 ∧ 2 ^ 32 ≤ 4294967296 := by decide
theorem witness_StepRunsDecodedCommand :
    (pendingState 0x10000000402).pending = true ∧ (Instr.pack 2 4).wellFormed = true ∧
    decode (pendingState 0x10000000402).cmd = .ok (.pack 2 4) := ⟨rfl, rfl, rfl⟩
theorem witness_StepRunsDecodedCommand_next : (after (exec (.pack 4 2) (pendingState 0x10000000204))).isSome = true := by
  decide +kernel
theorem witness_StepRunsDecodedCommand_refused :
    refusal (exec (.pack 2 4) (pendingState 0x10000000402)) = some .capacityVal := by decide +kernel
theorem witness_NoCommandNothingRuns : tight.pending = false := rfl
theorem witness_IssueIsOneStep : tight.pending = false ∧
    (after (exec (.pack 4 2) { tight with cmd := encode (.pack 4 2), pending := true })).isSome = true := by decide +kernel
theorem witness_EveryIssuedCommandCompletes :
    tight.pending = false ∧ cmdOp 0x20000000204 ≠ 3 ∧ (cmdCount 0x20000000204).toNat ≤ tight.caps.val ∧
    (cmdOp 0x20000000204 ≠ 0 → (cmdWidth 0x20000000204).toNat ≤ 64 →
      wordCount (cmdCount 0x20000000204).toNat (cmdWidth 0x20000000204).toNat ≤ tight.caps.wrd) := by decide +kernel

theorem witness_SelwSelectsBlockMaximum : (2 : Count) ≠ 0 ∧ (2 : Count).toNat ≤ tight.caps.val := by decide +kernel
theorem witness_SelwOfZerosIsZero :
    (1 : Count) ≠ 0 ∧ (1 : Count).toNat ≤ (load [0] [] 0).caps.val ∧
    ∀ i < (1 : Count).toNat, (load [0] [] 0).readVal i = 0 := by decide +kernel
theorem witness_SelwIsTightMinimum : (1 : Count) ≠ 0 ∧ (1 : Count).toNat ≤ tight.caps.val := by decide +kernel
theorem witness_SelwIgnoresWidthField :
    cmdOp 0x00000000800 = 0 ∧ cmdOp 0x000000008FF = 0 ∧ cmdCount 0x00000000800 = cmdCount 0x000000008FF := by
  decide +kernel

/-- The hypotheses of the statements about a PACK that succeeds, met at width `w` by `s`. -/
abbrev Packs (s : State) (w : BitWidth) (n : Count) : Prop :=
  w.toNat ≤ 64 ∧ s.HasRoom n.toNat w.toNat ∧ ∀ i < n.toNat, fits (s.readVal i) w.toNat = true

/-- The hypotheses of the statements about an UNPACK that succeeds, met at width `w` by `s`. -/
abbrev Unpacks (s : State) (w : BitWidth) (n : Count) : Prop :=
  w.toNat ≤ 64 ∧ s.HasRoom n.toNat w.toNat ∧ s.wlen.toNat = wordCount n.toNat w.toNat

theorem witness_PackLeavesClosedForm : Packs tight 4 2 := by decide +kernel
theorem witness_PackPlacesEachBit : Packs (load [0x7FFFFFFFFFFFFFFF, 1] [] 0) 63 2 := by decide +kernel
theorem witness_PackRejectsIllegalWidth : (2 : Count).toNat ≤ tight.caps.val ∧ 64 < (65 : BitWidth).toNat := by decide +kernel
theorem witness_PackRejectsOverflow :
    (4 : BitWidth).toNat ≤ 64 ∧ (load [3, 15, 16, 1] [] 0).HasRoom (4 : Count).toNat (4 : BitWidth).toNat ∧
    ∃ i < (4 : Count).toNat, fits ((load [3, 15, 16, 1] [] 0).readVal i) (4 : BitWidth).toNat = false := by decide +kernel
theorem witness_PackZeroesPadding : Packs (load [1, 1] [] 0) 33 2 ∧ 2 * 33 < 64 * wordCount 2 33 := by decide +kernel
theorem witness_PackWritesLengthAndHeader : Packs tight 32 2 := by decide +kernel
theorem witness_PackFrame : (after (exec (.pack 4 2) tight)).isSome = true := by decide +kernel
theorem witness_PackFrame_error : (after (exec (.pack 3 2) tight)).map (fun t => t.status) = some 1 := by decide +kernel
theorem witness_PackAtWidthZero :
    (2 : Count).toNat ≤ (load [0, 0] [] 0).caps.val ∧ ∀ i < (2 : Count).toNat, (load [0, 0] [] 0).readVal i = 0 := by
  decide +kernel
theorem witness_PackAtWidthZero_overflow :
    (2 : Count).toNat ≤ tight.caps.val ∧ ∃ i < (2 : Count).toNat, tight.readVal i ≠ 0 := by decide +kernel
theorem witness_PackAtFullWidthCopies : (1 : Count).toNat ≤ tight.caps.val ∧ (1 : Count).toNat ≤ tight.caps.wrd := by
  decide +kernel
theorem witness_PackOfEmptyBlock : (64 : BitWidth).toNat ≤ 64 ∧ 65 ≤ (65 : BitWidth).toNat := by decide
theorem witness_PackDependsOnBlockOnly :
    (load [3, 15] [7, 7] 9).caps = (load [3, 15, 1] [] 0).caps ∧
    (∀ i < (2 : Count).toNat, (load [3, 15] [7, 7] 9).readVal i = (load [3, 15, 1] [] 0).readVal i) ∧
    (after (exec (.pack 4 2) (load [3, 15, 1] [] 0))).map (fun t => t.status) = some 0 := by decide +kernel

theorem witness_UnpackLeavesClosedForm : Unpacks tight 4 2 := by decide +kernel
theorem witness_UnpackRejectsIllegalWidth : (2 : Count).toNat ≤ tight.caps.val ∧ 64 < (255 : BitWidth).toNat := by
  decide +kernel
theorem witness_UnpackRejectsWrongLength :
    (5 : BitWidth).toNat ≤ 64 ∧ (load [] [0xFFFFFFFFFFFFFFFF] 1).HasRoom (13 : Count).toNat (5 : BitWidth).toNat ∧
    (load [] [0xFFFFFFFFFFFFFFFF] 1).wlen.toNat ≠ ((13 : Count).toNat * (5 : BitWidth).toNat + 63) / 64 := by decide +kernel
theorem witness_UnpackedValuesFit : Unpacks (load [] [1, 2, 3] 3) 64 3 := by decide +kernel
theorem witness_UnpackAtWidthZero : (7 : Count).toNat ≤ State.reset.caps.val ∧ State.reset.wlen = 0 := by decide +kernel
theorem witness_UnpackAtWidthZero_malformed : (2 : Count).toNat ≤ tight.caps.val ∧ tight.wlen ≠ 0 := by decide +kernel
theorem witness_UnpackAtFullWidthCopies :
    tight.wlen = 1 ∧ (1 : Count).toNat ≤ tight.caps.val ∧ (1 : Count).toNat ≤ tight.caps.wrd := by decide +kernel
theorem witness_UnpackAtFullWidthCopies_malformed :
    (load [] [0] 1).wlen ≠ 2 ∧ (2 : Count).toNat ≤ (load [] [0] 1).caps.val ∧ (2 : Count).toNat ≤ (load [] [0] 1).caps.wrd := by
  decide +kernel
theorem witness_UnpackOfEmptyBlock : (5 : BitWidth).toNat ≤ 64 ∧ State.reset.wlen = 0 := by decide +kernel
theorem witness_UnpackOfEmptyBlock_malformed : (5 : BitWidth).toNat ≤ 64 ∧ tight.wlen ≠ 0 := by decide +kernel
theorem witness_UnpackOfEmptyBlock_width : 65 ≤ (65 : BitWidth).toNat := by decide
theorem witness_UnpackFrame : (after (exec (.unpack 4 2) tight)).map (fun t => t.status) = some 0 := by decide +kernel
theorem witness_UnpackFrame_error : (after (exec (.unpack 65 2) tight)).map (fun t => t.status) = some 3 := by
  decide +kernel
theorem witness_UnpackIgnoresPadding :
    Unpacks (load [] [0x94C170F3] 1) 4 8 ∧ (load [] [0xFFFFFFFF94C170F3] 1).wlen = (load [] [0x94C170F3] 1).wlen ∧
    (load [] [0xFFFFFFFF94C170F3] 1).caps = (load [] [0x94C170F3] 1).caps ∧
    ∀ p < (8 : Count).toNat * (4 : BitWidth).toNat,
      bufferBit (load [] [0xFFFFFFFF94C170F3] 1) p = bufferBit (load [] [0x94C170F3] 1) p := by decide +kernel
theorem witness_UnpackDependsOnWordsOnly :
    (load [9, 9] [0xF3, 5] 1).caps = (load [] [0xF3] 1).caps ∧ (load [9, 9] [0xF3, 5] 1).wlen = (load [] [0xF3] 1).wlen ∧
    (∀ j < (load [] [0xF3] 1).wlen.toNat, (load [9, 9] [0xF3, 5] 1).readWrd j = (load [] [0xF3] 1).readWrd j) ∧
    (after (exec (.unpack 4 2) (load [] [0xF3] 1))).map (fun t => t.status) = some 0 := by decide +kernel

theorem witness_BitLengthIsLeastWidth : (0x8000000000000000 : Value) ≠ 0 ∧ bitLength 0x8000000000000000 ≤ 64 := by
  decide +kernel
theorem witness_BlockFitsIffMaximumFits : (64 : Nat) ≤ 64 ∧ (1 : Nat) ≠ 0 := by decide
theorem witness_MaskIsAllLowBits : (63 : Nat) ≤ 64 := by decide
theorem witness_WordCountFacts : 2 ^ 32 - 1 ≤ 2 ^ 32 - 1 ∧ (64 : Nat) ≤ 64 ∧ 2 ^ 32 - 2 < 2 ^ 32 - 1 := by decide
/-- Value 3 of seven 21-bit values, the addressing table of spec/95_test_vectors.md. -/
theorem witness_FieldStaysInItsWords : (21 : Nat) ≤ 64 ∧ 3 < 7 ∧ straddles 3 21 = true ∧ bitOffset 3 21 = 63 := by
  decide +kernel

theorem witness_PackThenUnpackRoundTrips : Packs (load [0x1FFFFF, 0, 0x100000, 0xABCDE] [] 0) 21 4 := by decide +kernel
theorem witness_UnpackThenPackClearsPadding : Unpacks (load [] [0xFFFFFFFF94C170F3] 1) 4 8 := by decide +kernel
theorem witness_PackaPacksAtTheMinimum :
    (load [3, 15] [] 0).pending = false ∧ (2 : Count).toNat ≤ (load [3, 15] [] 0).caps.val ∧
    (2 : Count).toNat ≤ (load [3, 15] [] 0).caps.wrd ∧ (2 : Count) ≠ 0 := by decide +kernel
theorem witness_SelectedWidthAlwaysPacks :
    (after (exec (.selw 2 0) tight)).map (fun t => (t.status, t.wres)) = some (0, 4) ∧ (4 : BitVec 8).toNat ≤ (32 : BitWidth).toNat ∧
    (32 : BitWidth).toNat ≤ 64 ∧ wordCount (2 : Count).toNat (32 : BitWidth).toNat ≤ tight.caps.wrd := by decide +kernel
theorem witness_ErrorChangesOnlyStatus : (after (exec (.selw 0 0) tight)).map (fun t => t.status) = some 4 := by
  decide +kernel
theorem witness_EachCommandHasItsErrors :
    (after (exec (.selw 2 4) tight)).isSome = true ∧ (after (exec (.pack 4 2) tight)).isSome = true ∧
    (after (exec (.unpack 4 2) tight)).isSome = true := by decide +kernel
theorem witness_ReissueChangesNothing :
    tight.Inv ∧ (after (exec (.pack 4 2) tight)).isSome = true ∧ readOf (hostRead (.val 1) tight) = some 15 := by
  decide +kernel
theorem witness_StepWritesOnlyItsElements :
    (after (step (pendingState 0x20000000204))).isSome = true ∧ cmdOp (pendingState 0x20000000204).cmd ≠ 0 ∧
    cmdOp (pendingState 0x20000000204).cmd ≠ 1 := by decide +kernel
theorem witness_StepWritesOnlyItsElements_pack :
    (after (step (pendingState 0x10000000204))).isSome = true ∧ cmdOp (pendingState 0x10000000204).cmd ≠ 2 := by
  decide +kernel
theorem witness_NoCellBeyondTheCapacity_val : tight.caps.val < (3 : Count).toNat := by decide +kernel
theorem witness_NoCellBeyondTheCapacity_wrd :
    (2 : Count).toNat ≤ tight.caps.val ∧ (33 : BitWidth).toNat ≤ 64 ∧
    tight.caps.wrd < wordCount (2 : Count).toNat (33 : BitWidth).toNat := by decide +kernel
theorem witness_NoCellBeyondTheCapacity_room :
    (2 : Count).toNat ≤ tight.caps.val ∧
    ((32 : BitWidth).toNat ≤ 64 → wordCount (2 : Count).toNat (32 : BitWidth).toNat ≤ tight.caps.wrd) := by decide +kernel
/-- U6: refused, not `MalformedBuffer`, `InvalidWidth` or `BitWidthOverflow`, though each condition holds too. -/
theorem test_capacity_before_errors :
    refusal (exec (.unpack 33 2) tight) = some .capacityWrd ∧ refusal (exec (.unpack 65 3) tight) = some .capacityVal ∧
    refusal (exec (.pack 33 2) { tight with val := cells 0 [0xFFFFFFFFFFFFFFFF, 0] }) = some .capacityWrd := by
  decide +kernel
theorem witness_StepKeepsGoodState :
    (pendingState 0x10000000204).Inv ∧ (after (step (pendingState 0x10000000204))).isSome = true := by decide +kernel
theorem witness_HostActionKeepsGoodState :
    tight.Inv ∧ (after (hostAct (.writeVal 1 0) tight)).isSome = true := by decide +kernel
theorem witness_ResetLeavesTheResetState : tight.pending = false := rfl
theorem witness_HostOwnsBetweenCommands : tight.pending = false ∧ 1 < tight.caps.val ∧ 0 < tight.caps.wrd := by
  decide +kernel
theorem witness_HostOwnsBetweenCommands_pending : (pendingState 0x10000000204).pending = true := rfl
/-- A system of two, driven in turn: the run ends. -/
def systemRun : Option (System 2) :=
  match System.run [(0, .writeVal 0 3), (1, .writeVal 0 9), (0, .issue 0x00000000100), (1, .writeWlen 7)]
    (System.reset 2) with
  | .next s => some s
  | .fault _ => none
  | .refused _ => none
theorem witness_InstancesRunIndependently : systemRun.map (fun s => ((s.get 0).wres, (s.get 1).wlen)) = some (2, 7) := by
  decide +kernel

/-- The reason a system's run stops for, if it does. -/
def systemStop (acts : List (Fin 2 × HostAction)) : Option (Fault ⊕ Refusal) :=
  match System.run acts (System.reset 2) with
  | .next _ => none
  | .fault r => some (.inl r)
  | .refused r => some (.inr r)
theorem witness_RunStopsOnlyWhereAnInstanceStops_fault :
    systemStop [(0, .writeWlen 1), (1, .writeVal 4294967295 0), (0, .writeWlen 2)] =
      some (.inl (.noValCell 4294967295)) := by decide +kernel
theorem witness_RunStopsOnlyWhereAnInstanceStops_refusal :
    systemStop [(0, .writeWlen 1), (1, .issue 0x30000000000), (0, .writeWlen 2)] = some (.inr .reservedOp) := by
  decide +kernel
theorem witness_RunStopsOnlyWhereAnInstanceStops_next :
    ∀ u : Fin 2, (after (hostRun (([(0, .writeWlen 7), (1, .writeHdr 5)] : List (Fin 2 × HostAction)).filter
      (fun p => p.1 == u) |>.map Prod.snd) ((System.reset 2).get u))).isSome = true := by decide +kernel

end Sys2Proof.Tests
end

/-! HOST's reads and writes of one instance (R34, R40): what each answers while a command is pending and between commands,
and what HOST reads of a cell it has just written. -/

namespace Sys2Proof.Machine

/-- While a command is pending ENGINE owns every element: HOST has no move (R34, U9). -/
theorem hostAct_of_pending {s : State} (hp : s.pending = true) (a : HostAction) :
    hostAct a s = .refused .engineOwns := if_pos hp

section Reads

variable {s : State}

theorem hostRead_val_of_lt {i : Nat} (hi : i < s.caps.val) : hostRead (.val i) s = .next (s.readVal i).toNat :=
  if_pos hi

theorem hostRead_wrd_of_lt {j : Nat} (hj : j < s.caps.wrd) : hostRead (.wrd j) s = .next (s.readWrd j).toNat :=
  if_pos hj

/-- HOST reads back the value it wrote: the write keeps the capacity, and the cell holds the value. -/
theorem hostRead_val_writeVal_same {i : Nat} (hi : i < s.caps.val) (v : Value) :
    hostRead (.val i) (s.writeVal i v) = .next v.toNat := by
  have hcell : (s.writeVal i v).readVal i = v := by simp [State.writeVal_readVal]
  rw [hostRead_val_of_lt (s := s.writeVal i v) hi, hcell]

/-- HOST reads back the word it wrote: the write keeps the capacity, and the cell holds the word. -/
theorem hostRead_wrd_writeWrd_same {j : Nat} (hj : j < s.caps.wrd) (x : Word) :
    hostRead (.wrd j) (s.writeWrd j x) = .next x.toNat := by
  have hcell : (s.writeWrd j x).readWrd j = x := by simp [State.writeWrd_readWrd]
  rw [hostRead_wrd_of_lt (s := s.writeWrd j x) hj, hcell]

end Reads

section BetweenCommands

variable {s : State} (hp : s.pending = false)
include hp

theorem hostAct_writeVal {i : Nat} (hi : i < s.caps.val) (v : Value) :
    hostAct (.writeVal i v) s = .next (s.writeVal i v) := by
  simp [hostAct, hp, hi]

theorem hostAct_writeWrd {j : Nat} (hj : j < s.caps.wrd) (x : Word) :
    hostAct (.writeWrd j x) s = .next (s.writeWrd j x) := by
  simp [hostAct, hp, hj]

theorem hostAct_writeWlen (k : BitVec 32) : hostAct (.writeWlen k) s = .next (s.setWlen k) := by
  simp [hostAct, hp]

theorem hostAct_writeHdr (h : Header) : hostAct (.writeHdr h) s = .next (s.setHdr h) := by
  simp [hostAct, hp]

theorem hostAct_writeWres (r : BitVec 8) : hostAct (.writeWres r) s = .next (s.setWres r) := by
  simp [hostAct, hp]

theorem hostAct_writeStatus (c : BitVec 3) : hostAct (.writeStatus c) s = .next (s.setStatus c) := by
  simp [hostAct, hp]

end BetweenCommands

/-- Settles O58: while a command is pending HOST has no move; between commands each read and each write answers, a cell's
write reads back, and the memory laws leave every other cell alone. -/
theorem hostOwnsBetweenCommands : Obligations.HostOwnsBetweenCommands := by
  intro s
  refine ⟨hostAct_of_pending, fun hp => ⟨?reads, ?writeVal, ?writeWrd, hostAct_writeWlen hp, hostAct_writeHdr hp,
    hostAct_writeWres hp, hostAct_writeStatus hp⟩⟩
  case reads => exact ⟨rfl, rfl, rfl, rfl, rfl, fun _ => hostRead_val_of_lt, fun _ => hostRead_wrd_of_lt⟩
  case writeVal =>
    intro i v hi
    refine ⟨s.writeVal i v, hostAct_writeVal hp hi v, hostRead_val_writeVal_same hi v, rfl, fun j hj => ?_⟩
    rw [State.writeVal_readVal, if_neg hj]
  case writeWrd =>
    intro j x hj
    refine ⟨s.writeWrd j x, hostAct_writeWrd hp hj x, hostRead_wrd_writeWrd_same hj x, rfl, fun k hk => ?_⟩
    rw [State.writeWrd_readWrd, if_neg hk]

end Sys2Proof.Machine

/-! PACK's buffer bit by bit (R41): the bit at a global position of the packed words is that bit of the block's number. -/

namespace Sys2Proof.Machine

/-- Every bit below the end of the block lies in one of the block's words, where PACK leaves the block's number. -/
theorem bufferBit_packWords {w n : Nat} (hw : w ≤ 64) {s : State} (hf : ∀ i < n, fits (s.readVal i) w = true) {p : Nat}
    (hp : p < n * w) : bufferBit (packWords w n s) p = (blockNumber s w n).testBit p := by
  have hword : p / 64 < wordCount n w := (lt_wordCount_iff n w _).2 (by omega)
  have hbit : p % 64 < 64 := Nat.mod_lt _ (by decide)
  rw [bufferBit, packWords_bit hw hf hword hbit, Nat.div_add_mod]

/-- The bits of the words read as one number are the bits of the buffer (R41). -/
theorem bufferNumber_testBit_of_lt (s : State) {k p : Nat} (hp : p < 64 * k) :
    (bufferNumber s k).testBit p = bufferBit s p := by
  rw [bufferNumber_testBit, decide_eq_true hp, Bool.true_and]

/-- Settles O19: a value's bit and the buffer's bit at its global position are both that bit of the block's number. -/
theorem packPlacesEachBit : Obligations.PackPlacesEachBit := by
  intro s w n hw hroom hfits
  refine ⟨_, execPack_ok hw hroom hfits, fun i hi k hk => ?bitOfValue, fun p hp => bufferNumber_testBit_of_lt _ hp⟩
  case bitOfValue =>
    have hpos : i * w.toNat + k < n.toNat * w.toNat := by
      have hend := field_end_le w.toNat hi
      omega
    exact (bufferBit_packWords hw hfits hpos).trans (blockNumber_testBit hw hfits hi hk)

end Sys2Proof.Machine

/-! Issuing a command twice (R49). A command reads none of the registers it writes but the memories, so what a write of a
register changes passes through its loops; and its loops find their own results when they run again. -/

namespace Sys2Proof.Machine

/-- `f` touches neither memory: every read answers the same after it, and every write can be done before or after it. -/
structure ActsOnRegisters (f : State → State) : Prop where
  readVal : ∀ s i, (f s).readVal i = s.readVal i
  readWrd : ∀ s j, (f s).readWrd j = s.readWrd j
  writeVal : ∀ s i v, (f s).writeVal i v = f (s.writeVal i v)
  writeWrd : ∀ s j x, (f s).writeWrd j x = f (s.writeWrd j x)

theorem actsOnRegisters_setWlen (k : BitVec 32) : ActsOnRegisters (·.setWlen k) :=
  ⟨fun _ _ => rfl, fun _ _ => rfl, fun _ _ _ => rfl, fun _ _ _ => rfl⟩

theorem actsOnRegisters_setHdr (h : Header) : ActsOnRegisters (·.setHdr h) :=
  ⟨fun _ _ => rfl, fun _ _ => rfl, fun _ _ _ => rfl, fun _ _ _ => rfl⟩

theorem actsOnRegisters_setWres (r : BitVec 8) : ActsOnRegisters (·.setWres r) :=
  ⟨fun _ _ => rfl, fun _ _ => rfl, fun _ _ _ => rfl, fun _ _ _ => rfl⟩

theorem actsOnRegisters_setStatus (c : BitVec 3) : ActsOnRegisters (·.setStatus c) :=
  ⟨fun _ _ => rfl, fun _ _ => rfl, fun _ _ _ => rfl, fun _ _ _ => rfl⟩

namespace ActsOnRegisters

variable {f : State → State} (hf : ActsOnRegisters f)
include hf

theorem blockMax (s : State) (n : Nat) : blockMax (f s) n = blockMax s n := by
  induction n with
  | zero => rfl
  | succ k ih => simp only [Machine.blockMax, ih, hf.readVal]

theorem allFit (s : State) (w n : Nat) : allFit (f s) w n = allFit s w n := by
  induction n with
  | zero => rfl
  | succ k ih => simp only [Machine.allFit, ih, hf.readVal]

theorem zeroWords (k : Nat) (s : State) : zeroWords k (f s) = f (zeroWords k s) := by
  induction k with
  | zero => rfl
  | succ k ih => rw [Machine.zeroWords, Machine.zeroWords, ih, hf.writeWrd]

theorem orWord (j : Nat) (x : Word) (s : State) : orWord j x (f s) = f (orWord j x s) := by
  rw [Machine.orWord, Machine.orWord, hf.readWrd, hf.writeWrd]

theorem packValue (w i : Nat) (s : State) : packValue w i (f s) = f (packValue w i s) := by
  simp only [Machine.packValue, hf.readVal, hf.orWord]
  split <;> rfl

theorem packValues (w k : Nat) (s : State) : packValues w k (f s) = f (packValues w k s) := by
  induction k with
  | zero => rfl
  | succ k ih => rw [Machine.packValues, Machine.packValues, ih, hf.packValue]

theorem packWords (w n : Nat) (s : State) : packWords w n (f s) = f (packWords w n s) := by
  simp only [Machine.packWords, hf.zeroWords, hf.packValues]
  split <;> rfl

theorem unpackValue (s : State) (w i : Nat) : unpackValue (f s) w i = unpackValue s w i := by
  simp only [Machine.unpackValue, fieldBits, hf.readWrd]

theorem unpackValues (w k : Nat) (s : State) : unpackValues w k (f s) = f (unpackValues w k s) := by
  induction k with
  | zero => rfl
  | succ k ih => rw [Machine.unpackValues, Machine.unpackValues, ih, hf.unpackValue, hf.writeVal]

end ActsOnRegisters

/-- No command reads `STATUS`, and each writes it whenever it answers a next state (R27, R30). -/
theorem exec_setStatus (i : Instr) (s : State) (c : BitVec 3) : exec i (s.setStatus c) = exec i s := by
  have hreg := actsOnRegisters_setStatus c
  cases i with
  | selw n x =>
    simp only [exec, execSelw, hreg.blockMax s]
    rfl
  | pack w n =>
    simp only [exec, execPack, hreg.allFit s, hreg.packWords w.toNat n.toNat s]
    rfl
  | unpack w n =>
    simp only [exec, execUnpack, hreg.unpackValues w.toNat n.toNat s]
    rfl

/-- An error leaves a state at which the same command raises the same error. -/
theorem exec_raise {i : Instr} {s : State} {e : Err} (h : exec i s = .next (raise e s)) :
    exec i (raise e s) = .next (raise e s) := (exec_setStatus i s e.code).trans h

/-- A completed command runs again as it would have run before it wrote `STATUS`. -/
theorem exec_complete (i : Instr) (s : State) : exec i (complete s) = exec i s := exec_setStatus i s statusOk

/-! SELW writes `WRES`, which it does not read. -/

/-- SELW completes when the block is not empty and its cells exist (R100). -/
theorem execSelw_ok {n : Count} (x : BitWidth) {s : State} (hn : n.toNat ≠ 0) (hc : n.toNat ≤ s.caps.val) :
    execSelw n x s = .next (complete (s.setWres (BitVec.ofNat 8 (bitLength (blockMax s n.toNat))))) := by
  rw [execSelw, if_neg (Nat.not_lt.2 hc), if_neg hn]

theorem exec_selw_again {n : Count} {x : BitWidth} {s t : State} (h : exec (.selw n x) s = .next t) :
    exec (.selw n x) t = .next t := by
  obtain ⟨_, rfl⟩ | ⟨hn, hc, rfl⟩ := execSelw_next (x := x) h
  · exact exec_raise h
  · rw [exec_complete]
    refine (execSelw_ok x hn ?room).trans ?same
    case room => exact hc
    case same =>
      rw [(actsOnRegisters_setWres _).blockMax]
      rfl

/-! PACK clears its words before it fills them, so what an earlier PACK left in them is lost. -/

/-- Below `k` every cell is listed and holds 0, from `k` on nothing is touched (R114). -/
theorem zeroWords_read? (k : Nat) (s : State) (j : Nat) :
    (zeroWords k s).wrd.read? j = if j < k then some 0 else s.wrd.read? j := by
  by_cases hj : j < k
  · rw [if_pos hj]
    induction k with
    | zero => omega
    | succ k ih =>
      by_cases h : j = k
      · rw [h]
        exact Memory.read?_write_same _ _ _
      · exact (Memory.read?_write_ne _ _ h).trans (ih (by omega))
  · rw [if_neg hj]
    exact KeepsFrom.zeroWords le_rfl s j (by omega)

theorem zeroWords_wf {s : State} (h : s.wrd.wf) (k : Nat) : (zeroWords k s).wrd.wf := by
  induction k with
  | zero => exact h
  | succ k ih => exact Memory.wf_write ih _ _

theorem packValue_wf {s : State} (h : s.wrd.wf) (w i : Nat) : (packValue w i s).wrd.wf := by
  simp only [packValue, orWord]
  split
  · exact Memory.wf_write (Memory.wf_write h _ _) _ _
  · exact Memory.wf_write h _ _

theorem packValues_wf {s : State} (h : s.wrd.wf) (w k : Nat) : (packValues w k s).wrd.wf := by
  induction k with
  | zero => exact h
  | succ k ih => exact packValue_wf ih _ _

/-- PACK's loops keep the canonical form of `WRD`. -/
theorem packWords_wf {s : State} (h : s.wrd.wf) (w n : Nat) : (packWords w n s).wrd.wf := by
  unfold packWords
  split
  · exact zeroWords_wf h _
  · exact packValues_wf (zeroWords_wf h _) _ _

/-- States that differ in `WRD` only, and there only below `k`, are the same once the words below `k` are cleared. -/
theorem zeroWords_eq_of_keepsFrom {s t : State} {k : Nat} (hs : s.wrd.wf) (ht : t.wrd.wf) (ho : OnlyWrd s t)
    (hk : KeepsFrom k s t) : zeroWords k t = zeroWords k s := by
  have hwrd : (zeroWords k t).wrd = (zeroWords k s).wrd := by
    refine Memory.eq_of_read? (zeroWords_wf ht k) (zeroWords_wf hs k) fun j => ?_
    rw [zeroWords_read?, zeroWords_read?]
    split
    · rfl
    · exact hk j (by omega)
  have hto : OnlyWrd s (zeroWords k t) := ho.trans (.zeroWords k t)
  have hso : OnlyWrd s (zeroWords k s) := .zeroWords k s
  rw [hto, hwrd, ← hso]

/-- PACK's loops at the words they left leave them again. -/
theorem packWords_packWords {s : State} (h : s.wrd.wf) (w n : Nat) :
    packWords w n (packWords w n s) = packWords w n s := by
  have hzero : zeroWords (wordCount n w) (packWords w n s) = zeroWords (wordCount n w) s :=
    zeroWords_eq_of_keepsFrom h (packWords_wf h w n) (.packWords w n s) fun _ hj => packWords_read? w n s hj
  conv_lhs => rw [packWords, hzero]
  rfl

theorem exec_pack_again {w : BitWidth} {n : Count} {s t : State} (hwf : s.wrd.wf) (h : exec (.pack w n) s = .next t) :
    exec (.pack w n) t = .next t := by
  obtain ⟨hn, ⟨_, rfl⟩ | ⟨hw, hwc, ⟨_, rfl⟩ | ⟨hfits, rfl⟩⟩⟩ := execPack_next h
  · exact exec_raise h
  · exact exec_raise h
  · have honly := OnlyWrd.packWords w.toNat n.toNat s
    have hcaps : (packWords w.toNat n.toNat s).caps = s.caps := by rw [honly]
    rw [exec_complete]
    refine (execPack_ok hw ?room fun i hi => ?fit).trans ?same
    case room => exact ⟨by simpa [hcaps] using hn, by simpa [hcaps] using hwc⟩
    case fit => simpa [honly.readVal] using hfits i hi
    case same =>
      rw [(actsOnRegisters_setHdr _).packWords, (actsOnRegisters_setWlen _).packWords, packWords_packWords hwf]
      rfl

/-! UNPACK writes into `VAL` what it computes from `WRD` alone, so the second time each write finds its own value. -/

theorem unpackValues_wf {s : State} (h : s.val.wf) (w k : Nat) : (unpackValues w k s).val.wf := by
  induction k with
  | zero => exact h
  | succ k ih => exact Memory.wf_write ih _ _

/-- Every cell below the count is listed after UNPACK, with its reconstructed value. -/
theorem unpackValues_read?_of_lt (w : Nat) (s : State) {n i : Nat} (hi : i < n) :
    (unpackValues w n s).val.read? i = some (unpackValue s w i) := by
  induction n with
  | zero => omega
  | succ k ih =>
    have hval := (OnlyVal.unpackValues w k s).unpackValue w k
    by_cases h : i = k
    · rw [h, ← hval]
      exact Memory.read?_write_same _ _ _
    · exact (Memory.read?_write_ne _ _ h).trans (ih (by omega))

/-- Unpacking any first part of the block again changes nothing. -/
theorem unpackValues_unpackValues {s : State} (h : s.val.wf) (w : Nat) {k n : Nat} (hk : k ≤ n) :
    unpackValues w k (unpackValues w n s) = unpackValues w n s := by
  induction k with
  | zero => rfl
  | succ k ih =>
    have hcell := unpackValues_read?_of_lt w s (show k < n by omega)
    rw [unpackValues, ih (by omega), (OnlyVal.unpackValues w n s).unpackValue, State.writeVal,
      Memory.write_same (unpackValues_wf h w n) hcell]

theorem exec_unpack_again {w : BitWidth} {n : Count} {s t : State} (hwf : s.val.wf)
    (h : exec (.unpack w n) s = .next t) : exec (.unpack w n) t = .next t := by
  obtain ⟨hn, ⟨_, rfl⟩ | ⟨hw, hwc, ⟨_, rfl⟩ | ⟨hlen, rfl⟩⟩⟩ := execUnpack_next h
  · exact exec_raise h
  · exact exec_raise h
  · have honly := OnlyVal.unpackValues w.toNat n.toNat s
    have hcaps : (unpackValues w.toNat n.toNat s).caps = s.caps := by rw [honly]
    have hwlen : (unpackValues w.toNat n.toNat s).wlen = s.wlen := by rw [honly]
    rw [exec_complete]
    refine (execUnpack_ok hw ⟨hcaps ▸ hn, hcaps ▸ hwc⟩ (hwlen ▸ hlen)).trans ?_
    rw [unpackValues_unpackValues hwf _ le_rfl]

/-- Between commands a HOST read that answers a value leaves the state (R49). -/
theorem hostAct_read {s : State} {e : Element} {x : Nat} (hp : s.pending = false) (h : hostRead e s = .next x) :
    hostAct (.read e) s = .next s := by
  simp [hostAct, hp, h]

/-- Settles O51: a read answers the state itself, and each command, by its kind, finds its own results again. -/
theorem reissueChangesNothing : Obligations.ReissueChangesNothing := by
  refine ⟨fun _ _ _ => hostAct_read, fun i s t hinv h => ?again⟩
  case again =>
    obtain ⟨_, hval, hwrd, _, _⟩ := hinv
    cases i with
    | selw n x => exact exec_selw_again h
    | pack w n => exact exec_pack_again hwrd h
    | unpack w n => exact exec_unpack_again hval h

end Sys2Proof.Machine

/-! The command word as numbers and bits (R60, R61, R67): its three fields are the digits of its number, and above the low
40 bits, which are a header, stands `op`. -/

namespace Sys2Proof

theorem cmdOp_toNat (c : Command) : (cmdOp c).toNat = c.toNat / 2 ^ 40 := by
  rw [cmdOp, BitVec.extractLsb'_toNat, Nat.shiftRight_eq_div_pow]
  omega

theorem cmdCount_toNat (c : Command) : (cmdCount c).toNat = c.toNat / 2 ^ 8 % 2 ^ 32 := by
  rw [cmdCount, BitVec.extractLsb'_toNat, Nat.shiftRight_eq_div_pow]

theorem cmdWidth_toNat (c : Command) : (cmdWidth c).toNat = c.toNat % 2 ^ 8 := by
  rw [cmdWidth, BitVec.extractLsb'_toNat, Nat.shiftRight_zero]

/-- A value of `CMD` is the number its three fields make (R61). -/
theorem command_toNat (c : Command) :
    c.toNat = (cmdOp c).toNat * 2 ^ 40 + (cmdCount c).toNat * 2 ^ 8 + (cmdWidth c).toNat := by
  rw [cmdOp_toNat, cmdCount_toNat, cmdWidth_toNat]
  omega

/-- Every command's word holds the command's own fields (R61). -/
theorem encodedFields (i : Instr) : Laws.EncodedFields.Statement i := by
  cases i with
  | selw n x => exact Laws.EncodedFields.selw n x
  | pack w n => exact Laws.EncodedFields.pack w n
  | unpack w n => exact Laws.EncodedFields.unpack w n

/-- The word of a command is the number its own fields make (R61). -/
theorem encode_toNat (i : Instr) :
    (encode i).toNat = i.op.toNat * 2 ^ 40 + i.count.toNat * 2 ^ 8 + i.bitWidth.toNat := by
  obtain ⟨hop, hcount, hwidth⟩ := encodedFields i
  rw [command_toNat, hop, hcount, hwidth]

@[simp] theorem cmdOp_commandOfHeader (op : BitVec 2) (h : Header) : cmdOp (commandOfHeader op h) = op :=
  BitVec.extractLsb'_append_eq_left

/-- The low 40 bits of a command made of a header are the header. -/
@[simp] theorem commandOfHeader_setWidth (op : BitVec 2) (h : Header) : (commandOfHeader op h).setWidth 40 = h :=
  BitVec.setWidth_append_eq_right

/-- A header's number is what is left of the command's number below `op`. -/
theorem commandOfHeader_toNat_mod (op : BitVec 2) (h : Header) : (commandOfHeader op h).toNat % 2 ^ 40 = h.toNat := by
  rw [← BitVec.toNat_setWidth, commandOfHeader_setWidth]

/-- `CMD.count` lies where `HDR.count` does (R61, R67). -/
@[simp] theorem cmdCount_commandOfHeader (op : BitVec 2) (h : Header) :
    cmdCount (commandOfHeader op h) = headerCount h := by
  have hlow := commandOfHeader_toNat_mod op h
  apply BitVec.eq_of_toNat_eq
  rw [cmdCount_toNat, headerCount, BitVec.extractLsb'_toNat, Nat.shiftRight_eq_div_pow]
  omega

/-- `CMD.bit_width` lies where `HDR.bit_width` does (R61, R67). -/
@[simp] theorem cmdWidth_commandOfHeader (op : BitVec 2) (h : Header) :
    cmdWidth (commandOfHeader op h) = headerWidth h := by
  have hlow := commandOfHeader_toNat_mod op h
  apply BitVec.eq_of_toNat_eq
  rw [cmdWidth_toNat, headerWidth, BitVec.extractLsb'_toNat, Nat.shiftRight_zero]
  omega

/-- Settles O3: the fields are the digits of the number, an encoded command has its own fields, and a header below an `op`
keeps its bits' places. -/
theorem commandIsItsThreeFields : Obligations.CommandIsItsThreeFields :=
  ⟨command_toNat, encode_toNat, fun op h => ⟨cmdOp_commandOfHeader op h, cmdCount_commandOfHeader op h,
    cmdWidth_commandOfHeader op h, commandOfHeader_setWidth op h⟩⟩

/-! The opcode map (R74): every row's mask takes the `op` field and nothing else, so a row's test is a test of `op`. -/

/-- Every value of `CMD` is an `op` above a header. -/
theorem commandOfHeader_cmdOp (c : Command) : commandOfHeader (cmdOp c) (c.setWidth 40) = c := by
  apply BitVec.eq_of_toNat_eq
  have hop := cmdOp_toNat (commandOfHeader (cmdOp c) (c.setWidth 40))
  have hlow := commandOfHeader_toNat_mod (cmdOp c) (c.setWidth 40)
  rw [cmdOp_commandOfHeader, cmdOp_toNat] at hop
  rw [BitVec.toNat_setWidth] at hlow
  omega

/-- The opcode map's mask keeps `op` and clears the header below it. -/
theorem and_opcodeMask (c : Command) : c &&& 0x30000000000 = commandOfHeader (cmdOp c) 0 := by
  have hmask : (0x30000000000 : Command) = (3 : BitVec 2) ++ (0 : Header) := rfl
  have hall : ∀ op : BitVec 2, op &&& 3 = op := by decide
  calc c &&& 0x30000000000
      = commandOfHeader (cmdOp c) (c.setWidth 40) &&& (3 : BitVec 2) ++ (0 : Header) := by
        rw [commandOfHeader_cmdOp, hmask]
    _ = (cmdOp c &&& 3) ++ (c.setWidth 40 &&& 0) := BitVec.and_append
    _ = commandOfHeader (cmdOp c) 0 := by rw [hall, show c.setWidth 40 &&& 0 = 0 from BitVec.and_zero, commandOfHeader]

/-- The masked command meets the pattern of an `op` exactly when it has that `op`. -/
theorem and_opcodeMask_eq_iff (c : Command) {op : BitVec 2} {pattern : Command} (hp : commandOfHeader op 0 = pattern) :
    c &&& 0x30000000000 = pattern ↔ cmdOp c = op := by
  rw [and_opcodeMask, ← hp]
  refine ⟨fun h => ?_, fun h => by rw [h]⟩
  simpa using congrArg cmdOp h

/-- The map's patterns, one for each `op`, the reserved one included (R74). -/
theorem commandOfHeader_zero :
    commandOfHeader 0 0 = 0x00000000000 ∧ commandOfHeader 1 0 = 0x10000000000 ∧
    commandOfHeader 2 0 = 0x20000000000 ∧ commandOfHeader 3 0 = 0x30000000000 := by
  decide

/-- Every row has the one mask, and its pattern is its operation's `op` (R62, R74). -/
theorem row_eq (i : Instr) : i.row.mask = 0x30000000000 ∧ i.row.pattern = commandOfHeader i.op 0 := by
  obtain ⟨hselw, hpack, hunpack, _⟩ := commandOfHeader_zero
  cases i with
  | selw n x => exact ⟨rfl, hselw.symm⟩
  | pack w n => exact ⟨rfl, hpack.symm⟩
  | unpack w n => exact ⟨rfl, hunpack.symm⟩

/-- All that `decode` can answer, each answer with the one `op` it belongs to (R62, R70). -/
theorem decode_cases (c : Command) :
    (cmdOp c = 0 ∧ decode c = .ok (.selw (cmdCount c) (cmdWidth c))) ∨
    (cmdOp c = 1 ∧ decode c = .ok (.pack (cmdWidth c) (cmdCount c))) ∨
    (cmdOp c = 2 ∧ decode c = .ok (.unpack (cmdWidth c) (cmdCount c))) ∨
    (cmdOp c = 3 ∧ decode c = .error .reservedOp) := by
  obtain ⟨hselw, hpack, hunpack, hreserved⟩ := Machine.decode_of_op c
  have hop : ∀ op : BitVec 2, op = 0 ∨ op = 1 ∨ op = 2 ∨ op = 3 := by decide
  exact (hop (cmdOp c)).imp (fun h => ⟨h, hselw h⟩) (.imp (fun h => ⟨h, hpack h⟩)
    (.imp (fun h => ⟨h, hunpack h⟩) (fun h => ⟨h, hreserved h⟩)))

/-- Each `op` has the one kind of answer, and no other `op` has it (R62, R70). -/
theorem cmdOp_eq_iff_decode (c : Command) :
    (cmdOp c = 0 ↔ ∃ n x, decode c = .ok (.selw n x)) ∧
    (cmdOp c = 1 ↔ ∃ w n, decode c = .ok (.pack w n)) ∧
    (cmdOp c = 2 ↔ ∃ w n, decode c = .ok (.unpack w n)) ∧
    (cmdOp c = 3 ↔ decode c = .error .reservedOp) := by
  obtain ⟨hop, hdec⟩ | ⟨hop, hdec⟩ | ⟨hop, hdec⟩ | ⟨hop, hdec⟩ := decode_cases c <;> simp [hop, hdec]

/-- A decoded command has the `op` of the value it was read from. -/
theorem op_of_decode {c : Command} {i : Instr} (h : decode c = .ok i) : cmdOp c = i.op := by
  obtain ⟨hselw, hpack, hunpack, _⟩ := cmdOp_eq_iff_decode c
  cases i with
  | selw n x => exact hselw.2 ⟨n, x, h⟩
  | pack w n => exact hpack.2 ⟨w, n, h⟩
  | unpack w n => exact hunpack.2 ⟨w, n, h⟩

/-- Settles O4: a row's test is a test of `op`, and `op` alone decides which kind of answer `decode` gives. -/
theorem opcodeMapDecodes : Obligations.OpcodeMapDecodes := by
  refine ⟨fun c i h => ?decoded, fun c => ?rows⟩
  case decoded =>
    obtain ⟨hmask, hpattern⟩ := row_eq i
    rw [hmask]
    exact (and_opcodeMask_eq_iff c hpattern.symm).2 (op_of_decode h)
  case rows =>
    obtain ⟨hselw, hpack, hunpack, hreserved⟩ := cmdOp_eq_iff_decode c
    obtain ⟨hzero, hone, htwo, hthree⟩ := commandOfHeader_zero
    exact ⟨(and_opcodeMask_eq_iff c hzero).trans hselw, (and_opcodeMask_eq_iff c hone).trans hpack,
      (and_opcodeMask_eq_iff c htwo).trans hunpack, (and_opcodeMask_eq_iff c hthree).trans hreserved⟩

end Sys2Proof

/-! The command values as the machine runs them (R65, R70): what the step makes of a decoded command's end, and the commands
that raise whatever the block holds. -/

namespace Sys2Proof.Machine

/-- The step of a pending command that answers a next state is that state with no command pending. -/
theorem step_of_exec_next {s t : State} {i : Instr} (hp : s.pending = true) (hd : decode s.cmd = .ok i)
    (he : exec i s = .next t) : step s = .next t.retire := by
  simp [step, fetch, hp, hd, he]

/-- A pending value of `CMD` with the reserved `op` is refused (R70). -/
theorem step_of_reserved {s : State} (hp : s.pending = true) (hd : decode s.cmd = .error .reservedOp) :
    step s = .refused .reservedOp := by
  simp [step, fetch, hp, hd]

/-- SELW of no values raises `InvalidInput` at every capacity (R101). -/
theorem exec_selw_zero (x : BitWidth) (s : State) : exec (.selw 0 x) s = .next (raise .invalidInput s) := by
  simp [exec, execSelw]

/-- A width is illegal from 65 on (R63). -/
theorem widthIllegal_iff (w : Nat) : widthIllegal w = true ↔ 65 ≤ w := decide_eq_true_iff

theorem exec_pack_illegalWidth {w : BitWidth} {n : Count} {s : State} (hn : n.toNat ≤ s.caps.val) (hw : 65 ≤ w.toNat) :
    exec (.pack w n) s = .next (raise .invalidWidth s) := by
  rw [exec, execPack, if_neg (Nat.not_lt.2 hn), if_pos ((widthIllegal_iff _).2 hw)]

theorem exec_unpack_illegalWidth {w : BitWidth} {n : Count} {s : State} (hn : n.toNat ≤ s.caps.val)
    (hw : 65 ≤ w.toNat) : exec (.unpack w n) s = .next (raise .invalidWidth s) := by
  rw [exec, execUnpack, if_neg (Nat.not_lt.2 hn), if_pos ((widthIllegal_iff _).2 hw)]

/-- Settles O5: each `op` decodes to its command, whose raise, if it has one, is the end of the step. -/
theorem everyCommandValueHasItsPlace : Obligations.EveryCommandValueHasItsPlace := by
  intro s hp
  obtain ⟨hselw, hpack, hunpack, hreserved⟩ := decode_of_op s.cmd
  refine ⟨fun hop => ⟨hselw hop, fun hcount => ?emptyBlock⟩,
    fun hop => ⟨hpack hop, fun hn hw => step_of_exec_next hp (hpack hop) (exec_pack_illegalWidth hn hw)⟩,
    fun hop => ⟨hunpack hop, fun hn hw => step_of_exec_next hp (hunpack hop) (exec_unpack_illegalWidth hn hw)⟩,
    fun hop => step_of_reserved hp (hreserved hop)⟩
  case emptyBlock =>
    have hd := hselw hop
    rw [hcount] at hd
    exact step_of_exec_next hp hd (exec_selw_zero _ s)

/-- The meaning of SELW does not read the `bit_width` field (R65). -/
theorem exec_selw_ignores_width (n : Count) (x x' : BitWidth) (s : State) :
    exec (.selw n x) s = exec (.selw n x') s := rfl

/-- Settles O17: both values decode to SELW of the one count, whose meaning the field they differ in does not enter. -/
theorem selwIgnoresWidthField : Obligations.SelwIgnoresWidthField := by
  intro s c c' hop hop' hcount
  have hd : decode c = .ok (.selw (cmdCount c) (cmdWidth c)) := (decode_of_op c).1 hop
  have hd' : decode c' = .ok (.selw (cmdCount c) (cmdWidth c')) := hcount ▸ (decode_of_op c').1 hop'
  exact ⟨cmdWidth c, cmdWidth c', hd, hd', exec_selw_ignores_width _ _ _ s⟩

end Sys2Proof.Machine

/-! The mask (R89) at both ends of the legal widths. -/

namespace Sys2Proof.Machine

/-- The branch of its own at `W = WORD_SIZE`: all bits of the word are set. -/
theorem mask_wordSize : mask 64 = BitVec.allOnes 64 := by
  apply BitVec.eq_of_toNat_eq
  rw [mask_toNat le_rfl, BitVec.toNat_allOnes]

/-- At `W = 0` no bit is set. -/
theorem mask_zero : mask 0 = 0 := by
  apply BitVec.eq_of_toNat_eq
  rw [mask_toNat (Nat.zero_le 64)]
  rfl

/-- Settles O41: the value of the mask at every legal width determines both ends. -/
theorem maskIsAllLowBits : Obligations.MaskIsAllLowBits :=
  ⟨fun _ hw => mask_toNat hw, mask_wordSize, mask_zero⟩

end Sys2Proof.Machine

/-! SELW by its rules (R100 to R102): the empty block, the block's maximum, and the all-zero block as a case of it. -/

namespace Sys2Proof.Machine

/-- Settles O14: the raise on an empty block writes the code of `InvalidInput`, 4, into `STATUS` and nothing else. -/
theorem selwRejectsEmptyBlock : Obligations.SelwRejectsEmptyBlock :=
  fun s x => exec_selw_zero x s

/-- SELW of a non-empty block within the capacity writes the bit length of the block's maximum and `OK` (R100). -/
theorem exec_selw_nonempty {n : Count} (x : BitWidth) {s : State} (hn : n ≠ 0) (hc : n.toNat ≤ s.caps.val) :
    exec (.selw n x) s =
      .next { s with wres := BitVec.ofNat 8 (bitLength (blockMax s n.toNat)), status := 0 } :=
  execSelw_ok x (BitVec.toNat_ne_iff_ne.2 hn) hc

/-- Settles O13: the maximum that R100's loop finds bounds every value of the block and is one of them. -/
theorem selwSelectsBlockMaximum : Obligations.SelwSelectsBlockMaximum := by
  intro s n x
  refine ⟨fun hempty => ?empty, fun hn hc => ?nonempty⟩
  case empty =>
    rw [hempty]
    exact selwRejectsEmptyBlock s x
  case nonempty =>
    have hmem := blockMax_mem s (BitVec.toNat_ne_iff_ne.2 hn)
    exact ⟨blockMax s n.toNat, fun _ => readVal_le_blockMax s, hmem, exec_selw_nonempty x hn hc⟩

/-- The value 0 needs no bits (R80). -/
theorem bitLength_zero : bitLength 0 = 0 :=
  Nat.le_zero.1 ((bitLength_le_iff 0 0).2 Nat.one_pos)

/-- Settles O15: the maximum, being a value of the block, is 0, whose bit length is 0. -/
theorem selwOfZerosIsZero : Obligations.SelwOfZerosIsZero := by
  intro s n x hn hc hzero
  obtain ⟨m, _, ⟨i, hi, hread⟩, hexec⟩ := (selwSelectsBlockMaximum s n x).2 hn hc
  have hm : m = 0 := hread.symm.trans (hzero i hi)
  rw [hm, bitLength_zero] at hexec
  exact ⟨hexec, wordCount_zero_width n.toNat⟩

end Sys2Proof.Machine

/-! PACK's three ends (R110 to R112): the invalid width, the value that does not fit, and the packed block. Each end has the
conditions that lead to it, and there is no other. -/

namespace Sys2Proof.Machine

/-- The native range of a value is the range of the full width (R85). -/
theorem fits_full_width (v : Value) : fits v 64 = true := (fits_iff le_rfl).2 v.isLt

/-- No bits hold no value but 0 (R85). -/
theorem fits_zero_width (v : Value) : fits v 0 = true ↔ v = 0 := by
  rw [fits_iff (Nat.zero_le 64), Nat.pow_zero, Nat.lt_one_iff]
  exact BitVec.toNat_inj (y := 0)

/-- Some value does not fit exactly when not all of them fit (R112). -/
theorem allFit_eq_false_iff (s : State) (w n : Nat) :
    allFit s w n = false ↔ ∃ i < n, fits (s.readVal i) w = false := by
  simp [← Bool.not_eq_true, allFit_iff]

/-- The state PACK leaves when it succeeds (R113 to R117): the packed words, their number, the header and `OK`; all else is
as it was. -/
def packResult (w : BitWidth) (n : Count) (s : State) : State :=
  { s with wrd := (packWords w.toNat n.toNat s).wrd
           wlen := BitVec.ofNat 32 (wordCount n.toNat w.toNat)
           hdr := headerOf w n
           status := 0 }

/-- The words PACK leaves are those of its loops. -/
theorem packResult_readWrd (w : BitWidth) (n : Count) (s : State) (j : Nat) :
    (packResult w n s).readWrd j = (packWords w.toNat n.toNat s).readWrd j := by
  rw [OnlyWrd.packWords w.toNat n.toNat s]
  rfl

/-- PACK's writes after its loops make the state it leaves, since the loops write `WRD` alone. -/
theorem complete_packWords (w : BitWidth) (n : Count) (s : State) :
    complete (((packWords w.toNat n.toNat s).setWlen (BitVec.ofNat 32 (wordCount n.toNat w.toNat))).setHdr
      (headerOf w n)) = packResult w n s := by
  rw [OnlyWrd.packWords w.toNat n.toNat s]
  rfl

theorem exec_pack_ok {w : BitWidth} {n : Count} {s : State} (hw : w.toNat ≤ 64) (hroom : s.HasRoom n.toNat w.toNat)
    (hfits : ∀ i < n.toNat, fits (s.readVal i) w.toNat = true) :
    exec (.pack w n) s = .next (packResult w n s) := by
  rw [exec, execPack_ok hw hroom hfits, complete_packWords]

theorem exec_pack_overflow {w : BitWidth} {n : Count} {s : State} (hw : w.toNat ≤ 64)
    (hroom : s.HasRoom n.toNat w.toNat) (hover : ∃ i < n.toNat, fits (s.readVal i) w.toNat = false) :
    exec (.pack w n) s = .next (raise .bitWidthOverflow s) := by
  have hlegal : ¬ widthIllegal w.toNat = true := by
    rw [widthIllegal_iff]
    omega
  rw [exec, execPack, if_neg (Nat.not_lt.2 hroom.1), if_neg hlegal, if_neg (Nat.not_lt.2 hroom.2),
    if_pos ((allFit_eq_false_iff _ _ _).2 hover)]

/-- Every end of PACK that answers a next state, with the conditions at which it is reached. -/
theorem exec_pack_cases {w : BitWidth} {n : Count} {s t : State} (h : exec (.pack w n) s = .next t) :
    (n.toNat ≤ s.caps.val ∧ 65 ≤ w.toNat ∧ t = raise .invalidWidth s) ∨
    (w.toNat ≤ 64 ∧ s.HasRoom n.toNat w.toNat ∧ (∃ i < n.toNat, fits (s.readVal i) w.toNat = false) ∧
      t = raise .bitWidthOverflow s) ∨
    (w.toNat ≤ 64 ∧ s.HasRoom n.toNat w.toNat ∧ (∀ i < n.toNat, fits (s.readVal i) w.toNat = true) ∧
      t = packResult w n s) := by
  obtain ⟨hn, ⟨hw, ht⟩ | ⟨hw, hwc, ⟨hover, ht⟩ | ⟨hfits, ht⟩⟩⟩ := execPack_next h
  · exact .inl ⟨hn, hw, ht⟩
  · exact .inr (.inl ⟨hw, ⟨hn, hwc⟩, (allFit_eq_false_iff _ _ _).1 hover, ht⟩)
  · exact .inr (.inr ⟨hw, ⟨hn, hwc⟩, hfits, ht.trans (complete_packWords w n s)⟩)

/-- No error has the code of success (R27, R160). -/
theorem raise_status_ne_zero (e : Err) (s : State) : (raise e s).status ≠ 0 := by
  rw [raise_status]
  cases e <;> decide

/-- Settles O20: the raise of `InvalidWidth` writes its code, 3, into `STATUS` and nothing else. -/
theorem packRejectsIllegalWidth : Obligations.PackRejectsIllegalWidth :=
  fun _ _ _ hn hw => exec_pack_illegalWidth hn hw

/-- Settles O21: the raise of `BitWidthOverflow` writes its code, 1, and the fit test is a comparison at both ends. -/
theorem packRejectsOverflow : Obligations.PackRejectsOverflow :=
  ⟨fun _ _ _ => exec_pack_overflow, fits_full_width, fits_zero_width⟩

/-- Settles O24: an error's end writes `STATUS` alone; the packed block's end keeps every cell beyond its words. -/
theorem packFrame : Obligations.PackFrame := by
  intro s t w n h
  obtain ⟨_, _, rfl⟩ | ⟨_, _, _, rfl⟩ | ⟨_, _, _, rfl⟩ := exec_pack_cases h
  case inl => exact ⟨rfl, fun _ _ => ⟨rfl, rfl⟩, fun _ => ⟨rfl, rfl, rfl⟩⟩
  case inr.inl => exact ⟨rfl, fun _ _ => ⟨rfl, rfl⟩, fun _ => ⟨rfl, rfl, rfl⟩⟩
  case inr.inr =>
    refine ⟨rfl, fun j hj => ?cell, fun herr => absurd rfl herr⟩
    have hcell : (packResult w n s).wrd.read? j = s.wrd.read? j := packWords_read? _ _ _ hj
    exact ⟨congrArg (·.getD (Config.unspecWrd s.drawUnit s.drawEpoch j)) hcell, hcell⟩

end Sys2Proof.Machine

/-! What PACK writes beside its words (R116): the header holds the width and the count, and the word count fits `WLEN`. -/

namespace Sys2Proof

@[simp] theorem headerWidth_headerOf (w : BitWidth) (n : Count) : headerWidth (headerOf w n) = w :=
  BitVec.extractLsb'_append_eq_right

@[simp] theorem headerCount_headerOf (w : BitWidth) (n : Count) : headerCount (headerOf w n) = n :=
  BitVec.extractLsb'_append_eq_left

namespace Machine

/-- A block has no more words than values, so `WLEN` is wide enough for the word count (R83, R116). -/
theorem packResult_wlen_toNat {w : BitWidth} (hw : w.toNat ≤ 64) (n : Count) (s : State) :
    (packResult w n s).wlen.toNat = wordCount n.toNat w.toNat :=
  Nat.mod_eq_of_lt (lt_of_le_of_lt (wordCount_le hw) n.isLt)

/-- Settles O23: `WLEN` is wide enough for the word count, and a header gives back the fields it was made of. -/
theorem packWritesLengthAndHeader : Obligations.PackWritesLengthAndHeader := by
  intro s w n hw hroom hfits
  exact ⟨packResult w n s, exec_pack_ok hw hroom hfits, rfl, packResult_wlen_toNat hw n s, headerWidth_headerOf w n,
    headerCount_headerOf w n⟩

end Machine

end Sys2Proof

/-! PACK's words (R113 to R115): every bit of them is a bit of the block's number, so nothing of what they held before is
left, and the block is all they depend on. -/

namespace Sys2Proof.Machine

/-- Every bit of the packed words is that bit of the block's number, the padding bits included (R115). -/
theorem packResult_bit {w : BitWidth} {n : Count} {s : State} (hw : w.toNat ≤ 64)
    (hfits : ∀ i < n.toNat, fits (s.readVal i) w.toNat = true) {j : Nat} (hj : j < wordCount n.toNat w.toNat) {b : Nat}
    (hb : b < 64) :
    ((packResult w n s).readWrd j).getLsbD b = (blockNumber s w.toNat n.toNat).testBit (64 * j + b) := by
  rw [packResult_readWrd, packWords_bit hw hfits hj hb]

/-- The last word begins below the end of the block, so the words hold fewer than 64 bits beyond it (R82). -/
theorem wordCount_mul_lt (n w : Nat) : 64 * wordCount n w < n * w + 64 := by
  simp only [wordCount, ceilDiv, Config.wordSize]
  omega

/-- Settles O22: the block's number has no bit from `N * W` on, and the position of such a bit lies in the last word. -/
theorem packZeroesPadding : Obligations.PackZeroesPadding := by
  intro s w n hw hroom hfits
  have hend := wordCount_mul_lt n.toNat w.toNat
  refine ⟨packResult w n s, exec_pack_ok hw hroom hfits, by omega, fun p hp hlt => ⟨?bit, by omega⟩⟩
  case bit =>
    have hword : p / 64 < wordCount n.toNat w.toNat := by omega
    have hpow : 2 ^ (n.toNat * w.toNat) ≤ 2 ^ p := Nat.pow_le_pow_right (by omega) hp
    calc bufferBit (packResult w n s) p
        = (blockNumber s w.toNat n.toNat).testBit (64 * (p / 64) + p % 64) :=
          packResult_bit hw hfits hword (Nat.mod_lt _ (by decide))
      _ = (blockNumber s w.toNat n.toNat).testBit p := by rw [Nat.div_add_mod]
      _ = false := Nat.testBit_lt_two_pow (lt_of_lt_of_le (blockNumber_lt hw hfits) hpow)

/-- The block's number is a function of the block. -/
theorem blockNumber_congr {s s' : State} (w : Nat) {n : Nat} (hval : ∀ i < n, s'.readVal i = s.readVal i) :
    blockNumber s' w n = blockNumber s w n := by
  induction n with
  | zero => rfl
  | succ k ih => rw [blockNumber, blockNumber, ih fun i hi => hval i (by omega), hval k (by omega)]

/-- States with the same block get the same packed words. -/
theorem packResult_readWrd_congr {w : BitWidth} {n : Count} {s s' : State} (hw : w.toNat ≤ 64)
    (hval : ∀ i < n.toNat, s'.readVal i = s.readVal i) (hfits : ∀ i < n.toNat, fits (s.readVal i) w.toNat = true)
    {j : Nat} (hj : j < wordCount n.toNat w.toNat) : (packResult w n s').readWrd j = (packResult w n s).readWrd j := by
  have hfits' : ∀ i < n.toNat, fits (s'.readVal i) w.toNat = true := fun i hi => by rw [hval i hi, hfits i hi]
  apply BitVec.eq_of_getLsbD_eq
  intro b hb
  rw [packResult_bit hw hfits' hj hb, packResult_bit hw hfits hj hb, blockNumber_congr _ hval]

/-- Settles O28: the conditions of each end speak of the capacities and the block alone, so the other state has the same
end; where that is the packed block, both get the words of the one number. -/
theorem packDependsOnBlockOnly : Obligations.PackDependsOnBlockOnly := by
  intro s s' t w n hcaps hval h
  have hroom_iff : s'.HasRoom n.toNat w.toNat ↔ s.HasRoom n.toNat w.toNat := by rw [State.HasRoom, hcaps]
  obtain ⟨hn, hw, rfl⟩ | ⟨hw, hroom, ⟨i, hi, hover⟩, rfl⟩ | ⟨hw, hroom, hfits, rfl⟩ := exec_pack_cases h
  case inl =>
    exact ⟨_, exec_pack_illegalWidth (hcaps ▸ hn) hw, rfl, fun hok => absurd hok (raise_status_ne_zero _ s)⟩
  case inr.inl =>
    have hover' : ∃ i < n.toNat, fits (s'.readVal i) w.toNat = false := ⟨i, hi, by rw [hval i hi, hover]⟩
    exact ⟨_, exec_pack_overflow hw (hroom_iff.2 hroom) hover', rfl, fun hok => absurd hok (raise_status_ne_zero _ s)⟩
  case inr.inr =>
    have hfits' : ∀ i < n.toNat, fits (s'.readVal i) w.toNat = true := fun i hi => by rw [hval i hi, hfits i hi]
    exact ⟨_, exec_pack_ok hw (hroom_iff.2 hroom) hfits', rfl,
      fun _ => ⟨rfl, rfl, fun _ => packResult_readWrd_congr hw hval hfits⟩⟩

end Sys2Proof.Machine

/-! The ends of PACK's range (R118 to R120): the blocks that take no word, which are those of width 0 and the empty one,
and the full width, at which every value has a word of its own. -/

namespace Sys2Proof.Machine

/-- A block of no words has width 0 or no values: PACK's loops have nothing to clear and nothing to fill. -/
theorem packWords_of_no_words {w n : Nat} (h : wordCount n w = 0) (s : State) : packWords w n s = s := by
  rw [packWords, h]
  split
  · rfl
  · next hw =>
    have hn : n = 0 := by
      by_contra hne
      have hfirst : wordIndex 0 w < wordCount n w := wordIndex_lt (Nat.pos_of_ne_zero hne) hw
      omega
    rw [hn]
    rfl

/-- A block of no words is packed into the length 0 and its header. -/
theorem exec_pack_no_words {w : BitWidth} {n : Count} {s : State} (hw : w.toNat ≤ 64) (hn : n.toNat ≤ s.caps.val)
    (hnone : wordCount n.toNat w.toNat = 0) (hfits : ∀ i < n.toNat, fits (s.readVal i) w.toNat = true) :
    exec (.pack w n) s = .next { s with wlen := 0, hdr := headerOf w n, status := 0 } := by
  have hroom : s.HasRoom n.toNat w.toNat := ⟨hn, hnone ▸ Nat.zero_le _⟩
  rw [exec_pack_ok hw hroom hfits, packResult, packWords_of_no_words hnone, hnone]
  rfl

/-- Settles O25: at width 0 there is no word, and to fit is to be 0. -/
theorem packAtWidthZero : Obligations.PackAtWidthZero := by
  intro s n hn
  have hnone : wordCount n.toNat (0 : BitWidth).toNat = 0 := wordCount_zero_width n.toNat
  refine ⟨fun hzero => ?zeros, fun ⟨i, hi, hne⟩ => ?overflow⟩
  case zeros =>
    exact exec_pack_no_words (Nat.zero_le 64) hn hnone fun i hi => (fits_zero_width _).2 (hzero i hi)
  case overflow =>
    have hover : fits (s.readVal i) 0 = false := by
      rw [← Bool.not_eq_true, fits_zero_width]
      exact hne
    exact exec_pack_overflow (Nat.zero_le 64) ⟨hn, hnone ▸ Nat.zero_le _⟩ ⟨i, hi, hover⟩

/-- Settles O27: the empty block has no word and no value to test, and the width is checked all the same. -/
theorem packOfEmptyBlock : Obligations.PackOfEmptyBlock := by
  intro s w
  refine ⟨fun hw => ?legal, fun hw => exec_pack_illegalWidth (Nat.zero_le _) hw⟩
  case legal =>
    exact exec_pack_no_words hw (Nat.zero_le _) (wordCount_zero_count _) fun _ hi => absurd hi (Nat.not_lt_zero _)

/-- At the full width every cursor is a multiple of the word size (R119). -/
theorem bitOffset_full_width (i : Nat) : bitOffset i 64 = 0 := Nat.mul_mod_left i 64

/-- At the full width every field fills its word, so none straddles (R119). -/
theorem straddles_full_width (i : Nat) : straddles i 64 = false := by
  rw [← Bool.not_eq_true, straddles_iff, bitOffset_full_width]
  decide

/-- At the full width word `i` is value `i`: bit `b` of either is bit `64 * i + b` of the block's number. -/
theorem packResult_readWrd_full_width {n : Count} (s : State) {i : Nat} (hi : i < n.toNat) :
    (packResult 64 n s).readWrd i = s.readVal i := by
  have hfits : ∀ j < n.toNat, fits (s.readVal j) 64 = true := fun j _ => fits_full_width _
  have hword : i < wordCount n.toNat 64 := by rwa [wordCount_full_width]
  apply BitVec.eq_of_getLsbD_eq
  intro b hb
  calc ((packResult 64 n s).readWrd i).getLsbD b
      = (blockNumber s 64 n.toNat).testBit (64 * i + b) := packResult_bit (w := 64) le_rfl hfits hword hb
    _ = (blockNumber s 64 n.toNat).testBit (i * 64 + b) := by rw [Nat.mul_comm]
    _ = (s.readVal i).getLsbD b := blockNumber_testBit le_rfl hfits hi hb

/-- Settles O26: every value fits, the block has as many words as values, and word `i` is value `i`. -/
theorem packAtFullWidthCopies : Obligations.PackAtFullWidthCopies := by
  intro s n hval hwrd
  have hcount : wordCount n.toNat (64 : BitWidth).toNat = n.toNat := wordCount_full_width n.toNat
  have hlen : (packResult 64 n s).wlen = n :=
    BitVec.eq_of_toNat_eq ((packResult_wlen_toNat (w := 64) le_rfl n s).trans hcount)
  exact ⟨packResult 64 n s, exec_pack_ok le_rfl ⟨hval, hcount.le.trans hwrd⟩ fun _ _ => fits_full_width _, rfl, hlen,
    hcount, fun i hi => ⟨packResult_readWrd_full_width s hi, bitOffset_full_width i, straddles_full_width i⟩⟩

end Sys2Proof.Machine

/-! UNPACK's three ends (R130 to R132): the illegal width, the length that is not the word count, and the unpacked block. -/

namespace Sys2Proof.Machine

/-- UNPACK completes when the width is legal, the cells exist and the length is the word count (R130). -/
theorem exec_unpack_ok {w : BitWidth} {n : Count} {s : State} (hw : w.toNat ≤ 64) (hroom : s.HasRoom n.toNat w.toNat)
    (hlen : s.wlen.toNat = wordCount n.toNat w.toNat) :
    exec (.unpack w n) s = .next (complete (unpackValues w.toNat n.toNat s)) := execUnpack_ok hw hroom hlen

/-- Every other length is malformed, be it too short or too long (R132). -/
theorem exec_unpack_malformed {w : BitWidth} {n : Count} {s : State} (hw : w.toNat ≤ 64)
    (hroom : s.HasRoom n.toNat w.toNat) (hlen : s.wlen.toNat ≠ wordCount n.toNat w.toNat) :
    exec (.unpack w n) s = .next (raise .malformedBuffer s) := by
  have hlegal : ¬ widthIllegal w.toNat = true := mt (widthIllegal_iff _).1 (by omega)
  rw [exec, execUnpack, if_neg (Nat.not_lt.2 hroom.1), if_neg hlegal, if_neg (Nat.not_lt.2 hroom.2), if_pos hlen]

/-- The values of the unpacked block are the reconstructed ones. -/
theorem complete_unpackValues_readVal (w : Nat) (s : State) {n i : Nat} (hi : i < n) :
    (complete (unpackValues w n s)).readVal i = unpackValue s w i := by
  rw [complete_readVal, unpackValues_readVal, if_pos hi]

/-- The word count in exact arithmetic (R82). -/
theorem wordCount_eq (n w : Nat) : wordCount n w = (n * w + 63) / 64 := rfl

/-- Settles O30: the raise of `InvalidWidth` writes its code, 3, into `STATUS` and nothing else. -/
theorem unpackRejectsIllegalWidth : Obligations.UnpackRejectsIllegalWidth :=
  fun _ _ _ hn hw => exec_unpack_illegalWidth hn hw

/-- Settles O31: the raise of `MalformedBuffer` writes its code, 2, into `STATUS` and nothing else. -/
theorem unpackRejectsWrongLength : Obligations.UnpackRejectsWrongLength := by
  intro s w n hw hroom hlen
  rw [← wordCount_eq] at hlen
  exact exec_unpack_malformed hw hroom hlen

/-- Settles O35: the empty block has the word count 0 and no value to write, and the width is checked all the same. -/
theorem unpackOfEmptyBlock : Obligations.UnpackOfEmptyBlock := by
  intro s w
  have hcount : wordCount (0 : Count).toNat w.toNat = 0 := wordCount_zero_count _
  have hroom : s.HasRoom (0 : Count).toNat w.toNat := ⟨Nat.zero_le _, hcount ▸ Nat.zero_le _⟩
  have hlen : s.wlen.toNat = wordCount (0 : Count).toNat w.toNat ↔ s.wlen = 0 := by
    rw [hcount]
    exact BitVec.toNat_inj (y := 0)
  exact ⟨fun hw hempty => exec_unpack_ok hw hroom (hlen.2 hempty),
    fun hw hwords => exec_unpack_malformed hw hroom (mt hlen.1 hwords),
    fun hw => exec_unpack_illegalWidth hroom.1 hw⟩

/-- Settles O36: an error's end writes `STATUS` alone; the loop's writes go to the block's own cells. -/
theorem unpackFrame : Obligations.UnpackFrame := by
  intro s t w n h
  obtain ⟨_, ⟨_, rfl⟩ | ⟨_, _, ⟨_, rfl⟩ | ⟨_, rfl⟩⟩⟩ := execUnpack_next h
  case inl => exact ⟨rfl, fun _ _ => ⟨rfl, rfl⟩, fun _ => rfl⟩
  case inr.inl => exact ⟨rfl, fun _ _ => ⟨rfl, rfl⟩, fun _ => rfl⟩
  case inr.inr =>
    have honly : OnlyVal s (unpackValues w.toNat n.toNat s) := .unpackValues _ _ s
    refine ⟨congrArg complete honly, fun i hi => ⟨?value, unpackValues_read? _ _ s hi⟩, fun herr => absurd rfl herr⟩
    case value => rw [complete_readVal, unpackValues_readVal, if_neg (Nat.not_lt.2 hi)]

end Sys2Proof.Machine

/-! The values UNPACK reconstructs (R133, R134, R137): the masked field, and at the full width the word itself. -/

namespace Sys2Proof.Machine

/-- One formula for the three branches of a reconstructed value: the mask of the full width keeps every bit (R89, R134). -/
theorem unpackValue_eq_masked (s : State) (w i : Nat) :
    unpackValue s w i = if w = 0 then 0 else fieldBits s w i &&& mask w := by
  have hfull : fieldBits s 64 i &&& mask 64 = fieldBits s 64 i := by rw [mask_wordSize, BitVec.and_allOnes]
  unfold unpackValue
  split
  · rfl
  · split
    · next hw => rw [hw, hfull]
    · rfl

/-- Settles O32: each value is the reconstructed one, which fits and is the masked field. -/
theorem unpackedValuesFit : Obligations.UnpackedValuesFit := by
  intro s w n hw hroom hlen
  refine ⟨_, exec_unpack_ok hw hroom hlen, rfl, fun i hi => ?_⟩
  rw [complete_unpackValues_readVal _ s hi]
  exact ⟨unpackValue_fits hw s i, unpackValue_eq_masked s _ i⟩

/-- A bit of a word is the buffer's bit at its global position (R41). -/
theorem bufferBit_of_word (s : State) (j : Nat) {b : Nat} (hb : b < 64) :
    bufferBit s (j * 64 + b) = (s.readWrd j).getLsbD b := by
  rw [bufferBit, show (j * 64 + b) / 64 = j by omega, show (j * 64 + b) % 64 = b by omega]

/-- At the full width value `i` is word `i`, bit by bit (R137). -/
theorem unpackValue_full_width (s : State) (i : Nat) : unpackValue s 64 i = s.readWrd i := by
  apply BitVec.eq_of_getLsbD_eq
  intro b hb
  rw [unpackValue_bit le_rfl, decide_eq_true hb, Bool.true_and, bufferBit_of_word s i hb]

/-- Settles O34: the block has as many words as values, and value `i` is word `i`. -/
theorem unpackAtFullWidthCopies : Obligations.UnpackAtFullWidthCopies := by
  intro s n hval hwrd
  have hcount : wordCount n.toNat (64 : BitWidth).toNat = n.toNat := wordCount_full_width n.toNat
  have hroom : s.HasRoom n.toNat (64 : BitWidth).toNat := ⟨hval, hcount.le.trans hwrd⟩
  have hlen : s.wlen.toNat = wordCount n.toNat (64 : BitWidth).toNat ↔ s.wlen = n := by rw [hcount, BitVec.toNat_inj]
  refine ⟨fun hne => exec_unpack_malformed le_rfl hroom (mt hlen.1 hne),
    fun heq => ⟨_, exec_unpack_ok le_rfl hroom (hlen.2 heq), rfl, fun i hi => ⟨?copy, bitOffset_full_width i,
      straddles_full_width i⟩⟩⟩
  case copy => exact (complete_unpackValues_readVal 64 s hi).trans (unpackValue_full_width s i)

end Sys2Proof.Machine

/-! What UNPACK's values depend on (R140, R141): the buffer's bits below the end of the block, which lie in its words. -/

namespace Sys2Proof.Machine

/-- Buffers that agree below the end of the block hold the same values: every bit of a field lies there. -/
theorem unpackValue_congr {s s' : State} {w n : Nat} (hw : w ≤ 64)
    (hbits : ∀ p < n * w, bufferBit s' p = bufferBit s p) {i : Nat} (hi : i < n) :
    unpackValue s' w i = unpackValue s w i := by
  apply BitVec.eq_of_getLsbD_eq
  intro k _
  rw [unpackValue_bit hw, unpackValue_bit hw]
  by_cases hk : k < w
  · have hend := field_end_le w hi
    rw [hbits (i * w + k) (by omega)]
  · simp [hk]

/-- Buffers with the same words agree below the end of the block. -/
theorem bufferBit_congr {s s' : State} {w n : Nat} (hwords : ∀ j < wordCount n w, s'.readWrd j = s.readWrd j)
    {p : Nat} (hp : p < n * w) : bufferBit s' p = bufferBit s p := by
  have hword : p / 64 < wordCount n w := (lt_wordCount_iff n w _).2 (by omega)
  rw [bufferBit, bufferBit, hwords _ hword]

/-- Two states that UNPACK completes at, and whose buffers agree below the end of the block, get the same block. -/
theorem complete_unpackValues_congr {s s' : State} {w n : Nat} (hw : w ≤ 64)
    (hbits : ∀ p < n * w, bufferBit s' p = bufferBit s p) {i : Nat} (hi : i < n) :
    (complete (unpackValues w n s')).readVal i = (complete (unpackValues w n s)).readVal i := by
  rw [complete_unpackValues_readVal w s' hi, complete_unpackValues_readVal w s hi, unpackValue_congr hw hbits hi]

/-- Settles O37: both states pass the checks, and the padding bits are in no field. -/
theorem unpackIgnoresPadding : Obligations.UnpackIgnoresPadding := by
  intro s s' w n hw hroom hlen hwlen hcaps hbits
  have hroom' : s'.HasRoom n.toNat w.toNat := by rwa [State.HasRoom, hcaps]
  exact ⟨_, _, exec_unpack_ok hw hroom hlen, exec_unpack_ok hw hroom' (hwlen ▸ hlen), rfl, rfl,
    fun _ => complete_unpackValues_congr hw hbits⟩

/-- Settles O38: the conditions of each end speak of the capacities and the length alone, so the other state has the same
end; where that is the unpacked block, the words hold all of its bits. -/
theorem unpackDependsOnWordsOnly : Obligations.UnpackDependsOnWordsOnly := by
  intro s s' t w n hcaps hwlen hwords h
  have hroom_iff : s'.HasRoom n.toNat w.toNat ↔ s.HasRoom n.toNat w.toNat := by rw [State.HasRoom, hcaps]
  obtain ⟨hn, ⟨hw, rfl⟩ | ⟨hw, hwc, ⟨hlen, rfl⟩ | ⟨hlen, rfl⟩⟩⟩ := execUnpack_next h
  case inl =>
    exact ⟨_, exec_unpack_illegalWidth (hcaps ▸ hn) hw, rfl, fun hok => absurd hok (raise_status_ne_zero _ s)⟩
  case inr.inl =>
    exact ⟨_, exec_unpack_malformed hw (hroom_iff.2 ⟨hn, hwc⟩) (hwlen ▸ hlen), rfl,
      fun hok => absurd hok (raise_status_ne_zero _ s)⟩
  case inr.inr =>
    rw [hlen] at hwords
    exact ⟨_, exec_unpack_ok hw (hroom_iff.2 ⟨hn, hwc⟩) (hwlen ▸ hlen), rfl,
      fun _ _ => complete_unpackValues_congr hw fun _ => bufferBit_congr hwords⟩

end Sys2Proof.Machine

/-! The round trip (R152): PACK's words hold the block's number, and UNPACK reads every field of that number back. -/

namespace Sys2Proof.Machine

/-- Below the end of the block the buffer that PACK leaves holds the bits of the block's number. -/
theorem bufferBit_packResult {w : BitWidth} {n : Count} {s : State} (hw : w.toNat ≤ 64)
    (hfits : ∀ i < n.toNat, fits (s.readVal i) w.toNat = true) {p : Nat} (hp : p < n.toNat * w.toNat) :
    bufferBit (packResult w n s) p = (blockNumber s w.toNat n.toNat).testBit p := by
  rw [bufferBit, packResult_readWrd]
  exact bufferBit_packWords hw hfits hp

/-- UNPACK is a left inverse of the block's number: from any buffer that holds its bits each value comes back, the bits
below the width from its field, and those from the width on because the value fits. -/
theorem unpackValue_of_blockNumber {s t : State} {w n : Nat} (hw : w ≤ 64)
    (hfits : ∀ i < n, fits (s.readVal i) w = true)
    (hbits : ∀ p < n * w, bufferBit t p = (blockNumber s w n).testBit p) {i : Nat} (hi : i < n) :
    unpackValue t w i = s.readVal i := by
  apply BitVec.eq_of_getLsbD_eq
  intro k _
  rw [unpackValue_bit hw]
  by_cases hk : k < w
  · have hend := field_end_le w hi
    rw [decide_eq_true hk, Bool.true_and, hbits (i * w + k) (by omega), blockNumber_testBit hw hfits hi hk]
  · rw [decide_eq_false hk, Bool.false_and, getLsbD_of_fits hw (hfits i hi) (Nat.not_lt.1 hk)]

/-- Settles O45: PACK leaves the word count in `WLEN` and the capacities alone, so UNPACK passes its checks; `VAL` is no
part of the buffer, so what HOST puts there changes no value that UNPACK reconstructs. -/
theorem packThenUnpackRoundTrips : Obligations.PackThenUnpackRoundTrips := by
  intro s w n hw hroom hfits
  refine ⟨packResult w n s, exec_pack_ok hw hroom hfits, rfl, fun m => ?unpack⟩
  let t : State := { packResult w n s with val := m }
  have hlen : t.wlen.toNat = wordCount n.toNat w.toNat := packResult_wlen_toNat hw n s
  have hbits : ∀ p < n.toNat * w.toNat, bufferBit t p = (blockNumber s w.toNat n.toNat).testBit p :=
    fun _ => bufferBit_packResult hw hfits
  refine ⟨complete (unpackValues w.toNat n.toNat t), exec_unpack_ok hw hroom hlen, rfl, fun i hi => ?value⟩
  case value => rw [complete_unpackValues_readVal _ t hi, unpackValue_of_blockNumber hw hfits hbits hi]

end Sys2Proof.Machine

/-! How a command ends (R27, R165): in one error, raised at the state it was issued in, or in success. -/

namespace Sys2Proof.Machine

/-- The two ends of a command that answers a next state. An error's end is one `raise` with nothing written before it. -/
theorem exec_next_raise_or_complete {i : Instr} {s t : State} (h : exec i s = .next t) :
    (∃ e, t = raise e s) ∨ ∃ u, t = complete u := by
  cases i with
  | selw n x =>
    obtain ⟨_, ht⟩ | ⟨_, _, ht⟩ := execSelw_next (x := x) h
    · exact .inl ⟨_, ht⟩
    · exact .inr ⟨_, ht⟩
  | pack w n =>
    obtain ⟨_, ⟨_, ht⟩ | ⟨_, _, ⟨_, ht⟩ | ⟨_, ht⟩⟩⟩ := execPack_next h
    · exact .inl ⟨_, ht⟩
    · exact .inl ⟨_, ht⟩
    · exact .inr ⟨_, ht⟩
  | unpack w n =>
    obtain ⟨_, ⟨_, ht⟩ | ⟨_, _, ⟨_, ht⟩ | ⟨_, ht⟩⟩⟩ := execUnpack_next h
    · exact .inl ⟨_, ht⟩
    · exact .inl ⟨_, ht⟩
    · exact .inr ⟨_, ht⟩

/-- Settles O49: a command's success leaves `STATUS` 0, so any other end is its one `raise`. -/
theorem errorChangesOnlyStatus : Obligations.ErrorChangesOnlyStatus := by
  refine ⟨fun _ _ => rfl, rfl, rfl, rfl, rfl, fun i s t h herr => ?raised⟩
  case raised =>
    obtain hraise | ⟨u, rfl⟩ := exec_next_raise_or_complete h
    · exact hraise
    · exact absurd (complete_status u) herr

end Sys2Proof.Machine

/-! Several instances (R180): an action on one instance is that instance's own action and leaves every other as it is, so a
run on the system is, seen from an instance, the run of its own actions. -/

namespace Sys2Proof.Machine

/-- The actions of a run that are on instance `u`, in their order. -/
def ownActions {k : Nat} (u : Fin k) (acts : List (Fin k × HostAction)) : List HostAction :=
  (acts.filter (fun p => p.1 == u)).map Prod.snd

section OwnActions

variable {k : Nat} {u v : Fin k} (a : HostAction) (rest : List (Fin k × HostAction))

@[simp] theorem ownActions_nil : ownActions u [] = [] := rfl

@[simp] theorem ownActions_cons_same : ownActions u ((u, a) :: rest) = a :: ownActions u rest := by
  simp [ownActions]

theorem ownActions_cons_ne (h : v ≠ u) : ownActions u ((v, a) :: rest) = ownActions u rest := by
  simp [ownActions, h]

end OwnActions

/-- A run whose first action answers a next state goes on from there. -/
theorem hostRun_cons_of_next {a : HostAction} {s t : State} (h : hostAct a s = .next t) (rest : List HostAction) :
    hostRun (a :: rest) s = hostRun rest t := by
  rw [hostRun, h]

/-- A run on a system that ends has come through its first action. -/
theorem System.run_cons_next {k : Nat} {u : Fin k} {a : HostAction} {rest : List (Fin k × HostAction)}
    {sys sys' : System k} (h : System.run ((u, a) :: rest) sys = .next sys') :
    ∃ mid, System.act u a sys = .next mid ∧ System.run rest mid = .next sys' := by
  rw [System.run] at h
  split at h
  · next mid hmid => exact ⟨mid, hmid, h⟩
  · cases h
  · cases h

/-- Everything an action on instance `u` can do when it answers a next system: that instance does the action, and no other
instance changes. -/
theorem System.act_next {k : Nat} {u : Fin k} {a : HostAction} {sys sys' : System k}
    (h : System.act u a sys = .next sys') :
    hostAct a (sys.get u) = .next (sys'.get u) ∧ ∀ v, u ≠ v → sys'.get v = sys.get v := by
  rw [System.act] at h
  split at h
  · next t ht =>
    cases h
    refine ⟨by simpa [Vector.get_eq_getElem] using ht, fun v hv => ?other⟩
    case other => simp [Vector.get_eq_getElem, Vector.getElem_set_ne, Fin.val_ne_of_ne hv]
  · cases h
  · cases h

/-- After a run on a system that ends, each instance is where its own actions, run alone, take it. -/
theorem hostRun_ownActions_of_run {k : Nat} {acts : List (Fin k × HostAction)} {sys sys' : System k}
    (h : System.run acts sys = .next sys') (u : Fin k) :
    hostRun (ownActions u acts) (sys.get u) = .next (sys'.get u) := by
  induction acts generalizing sys with
  | nil =>
    cases h
    rfl
  | cons p rest ih =>
    obtain ⟨v, a⟩ := p
    obtain ⟨mid, hact, hrest⟩ := System.run_cons_next h
    obtain ⟨hown, hothers⟩ := System.act_next hact
    by_cases hv : v = u
    · subst hv
      rw [ownActions_cons_same, hostRun_cons_of_next hown, ih hrest]
    · rw [ownActions_cons_ne a rest hv, ← hothers u hv, ih hrest]

/-- Settles O59, by induction on the run: its first action is the instance's own or leaves the instance as it is. -/
theorem instancesRunIndependently : Obligations.InstancesRunIndependently :=
  fun _ _ _ _ => hostRun_ownActions_of_run

end Sys2Proof.Machine

/-! The good state (R9, R21, R22, R40): it speaks of the capacities and the two memories, so a command keeps it when its writes
to a memory stay below that memory's end. -/

namespace Sys2Proof.Machine

/-- A canonical memory that reads as `m` did from cell `k` on lists no cell beyond an end that holds `m` and the cells
below `k`. -/
theorem Memory.lt_end_of_read?_eq {m m' : Memory} {k cap : Nat} (hwf : m'.wf) (hk : k ≤ cap)
    (hend : ∀ p ∈ m, p.1 < cap) (hread : ∀ i, k ≤ i → m'.read? i = m.read? i) : ∀ p ∈ m', p.1 < cap := by
  intro p hp
  by_cases hlt : p.1 < k
  · omega
  · have hlisted : m.read? p.1 = some p.2 := (hread p.1 (by omega)).symm.trans (Memory.read?_of_mem hwf hp)
    exact hend (p.1, p.2) (Memory.mem_of_read? hlisted)

/-- A write below the end of a memory lists no cell beyond it. -/
theorem Memory.lt_end_write {m : Memory} {i cap : Nat} (hi : i < cap) (v : Word) (hend : ∀ p ∈ m, p.1 < cap) :
    ∀ p ∈ m.write i v, p.1 < cap := by
  intro p hp
  obtain rfl | hp := Memory.mem_write hp
  · exact hi
  · exact hend p hp

@[simp] theorem unpackValues_caps (w k : Nat) (s : State) : (unpackValues w k s).caps = s.caps := by
  rw [OnlyVal.unpackValues w k s]

@[simp] theorem unpackValues_wrd (w k : Nat) (s : State) : (unpackValues w k s).wrd = s.wrd := by
  rw [OnlyVal.unpackValues w k s]

section Updates

variable {s : State} (hinv : s.Inv)
include hinv

/-- The packed block's words lie below the word count, which the capacity admits. -/
theorem inv_packResult {w : BitWidth} {n : Count} (hroom : s.HasRoom n.toNat w.toNat) : (packResult w n s).Inv := by
  obtain ⟨hcaps, hval, hwrd, hvalEnd, hwrdEnd⟩ := hinv
  have hwf : (packResult w n s).wrd.wf := packWords_wf hwrd _ _
  exact ⟨hcaps, hval, hwf, hvalEnd,
    Memory.lt_end_of_read?_eq hwf hroom.2 hwrdEnd fun _ hj => packWords_read? _ _ _ hj⟩

/-- The unpacked block's values lie below the count, which the capacity admits. -/
theorem inv_complete_unpackValues {w n : Nat} (hn : n ≤ s.caps.val) : (complete (unpackValues w n s)).Inv := by
  obtain ⟨hcaps, hval, hwrd, hvalEnd, hwrdEnd⟩ := hinv
  have hwf : (unpackValues w n s).val.wf := unpackValues_wf hval w n
  have hend := Memory.lt_end_of_read?_eq hwf hn hvalEnd fun _ hi => unpackValues_read? w n s hi
  rw [State.Inv, complete_caps, complete_wrd, unpackValues_caps, unpackValues_wrd]
  exact ⟨hcaps, hwf, hwrd, hend, hwrdEnd⟩

theorem inv_writeVal {i : Nat} (hi : i < s.caps.val) (v : Value) : (s.writeVal i v).Inv := by
  obtain ⟨hcaps, hval, hwrd, hvalEnd, hwrdEnd⟩ := hinv
  exact ⟨hcaps, Memory.wf_write hval i v, hwrd, Memory.lt_end_write hi v hvalEnd, hwrdEnd⟩

theorem inv_writeWrd {j : Nat} (hj : j < s.caps.wrd) (x : Word) : (s.writeWrd j x).Inv := by
  obtain ⟨hcaps, hval, hwrd, hvalEnd, hwrdEnd⟩ := hinv
  exact ⟨hcaps, hval, Memory.wf_write hwrd j x, hvalEnd, Memory.lt_end_write hj x hwrdEnd⟩

/-- A reset empties both memories and keeps the capacities (R190). -/
theorem inv_resetAgain : s.resetAgain.Inv := by
  obtain ⟨hcaps, _⟩ := hinv
  exact ⟨hcaps, List.Pairwise.nil, List.Pairwise.nil, nofun, nofun⟩

/-- Every command keeps the good state: its end writes registers, or the cells of one memory for which it has room. -/
theorem inv_of_exec {i : Instr} {t : State} (h : exec i s = .next t) : t.Inv := by
  cases i with
  | selw n x =>
    obtain ⟨_, rfl⟩ | ⟨_, _, rfl⟩ := execSelw_next (x := x) h
    · exact hinv
    · exact hinv
  | pack w n =>
    obtain ⟨_, _, rfl⟩ | ⟨_, _, _, rfl⟩ | ⟨_, hroom, _, rfl⟩ := exec_pack_cases h
    · exact hinv
    · exact hinv
    · exact inv_packResult hinv hroom
  | unpack w n =>
    obtain ⟨hn, ⟨_, rfl⟩ | ⟨_, _, ⟨_, rfl⟩ | ⟨_, rfl⟩⟩⟩ := execUnpack_next h
    · exact hinv
    · exact hinv
    · exact inv_complete_unpackValues hinv hn

/-- Every step keeps the good state: with no command pending it changes nothing, and else it is the command's end. -/
theorem inv_of_step {t : State} (h : step s = .next t) : t.Inv := by
  obtain ⟨_, rfl⟩ | ⟨_, i, u, _, hu, rfl⟩ := step_next h
  · exact hinv
  · have hend : u.Inv := inv_of_exec hinv hu
    exact hend

end Updates

/-- Settles O54: a step that changes the state is the end of one command, and each command's end is good. -/
theorem stepKeepsGoodState : Obligations.StepKeepsGoodState :=
  fun _ _ hinv h => inv_of_step hinv h

/-- Everything an action of HOST can do when it answers a next state: it writes a cell that exists, issues a command, resets,
or leaves the capacities and both memories alone (R34, R40, R200). -/
theorem hostAct_next {a : HostAction} {s t : State} (h : hostAct a s = .next t) :
    (∃ i v, i < s.caps.val ∧ t = s.writeVal i v) ∨ (∃ j x, j < s.caps.wrd ∧ t = s.writeWrd j x) ∨
    (∃ c, step (s.issue c) = .next t) ∨ t = s.resetAgain ∨
    (t.caps = s.caps ∧ t.val = s.val ∧ t.wrd = s.wrd) := by
  unfold hostAct at h
  split at h
  · cases h
  · cases a with
    | writeVal i v =>
      dsimp only at h
      split at h
      · next hi =>
        cases h
        exact .inl ⟨i, v, hi, rfl⟩
      · cases h
    | writeWrd j x =>
      dsimp only at h
      split at h
      · next hj =>
        cases h
        exact .inr (.inl ⟨j, x, hj, rfl⟩)
      · cases h
    | issue c => exact .inr (.inr (.inl ⟨c, h⟩))
    | reset =>
      cases h
      exact .inr (.inr (.inr (.inl rfl)))
    | read e =>
      dsimp only at h
      split at h
      · cases h
        exact .inr (.inr (.inr (.inr ⟨rfl, rfl, rfl⟩)))
      · cases h
      · cases h
    | writeWlen _ | writeHdr _ | writeWres _ | writeStatus _ =>
      cases h
      exact .inr (.inr (.inr (.inr ⟨rfl, rfl, rfl⟩)))

/-- Settles O55: a write stays below its memory's end, an issue is a step from a state with the same memories, a reset empties
both memories, and any other action leaves all that the good state speaks of. -/
theorem hostActionKeepsGoodState : Obligations.HostActionKeepsGoodState := by
  intro a s t hinv h
  obtain ⟨i, v, hi, rfl⟩ | ⟨j, x, hj, rfl⟩ | ⟨c, hstep⟩ | rfl | ⟨hcaps, hval, hwrd⟩ := hostAct_next h
  case inl => exact inv_writeVal hinv hi v
  case inr.inl => exact inv_writeWrd hinv hj x
  case inr.inr.inl =>
    have hissued : (s.issue c).Inv := hinv
    exact inv_of_step hissued hstep
  case inr.inr.inr.inl => exact inv_resetAgain hinv
  case inr.inr.inr.inr =>
    rw [State.Inv, hcaps, hval, hwrd]
    exact hinv

/-- Settles O56: nothing is listed right after reset, and the largest capacities are admissible. -/
theorem resetIsGoodState : Obligations.ResetIsGoodState := by
  obtain ⟨hval, hwrd⟩ := reset_memories_wf
  exact ⟨rfl, hval, hwrd, nofun, nofun⟩

/-- Settles O57: the reset event answers the tabulated state at once, whatever the state before it, and reset itself is that
state; an empty memory has no cell that counts as written. -/
theorem resetLeavesTheResetState : Obligations.ResetLeavesTheResetState := by
  refine ⟨fun s hp => ⟨s.resetAgain, ?answers, rfl, rfl, rfl, rfl, rfl, fun _ => ⟨rfl, rfl⟩, rfl⟩,
    rfl, rfl, rfl, rfl, rfl, fun _ => ⟨rfl, rfl⟩⟩
  case answers => simp [hostAct, hp]

end Sys2Proof.Machine

/-! Encoding and decoding are inverse (R61, R62, R70): a command and its word have the same `op` and the same two fields, and
those determine each of them. -/

namespace Sys2Proof

/-- A value of `CMD` is determined by its three fields (R61). -/
theorem command_ext {c c' : Command} (hop : cmdOp c = cmdOp c') (hcount : cmdCount c = cmdCount c')
    (hwidth : cmdWidth c = cmdWidth c') : c = c' := by
  apply BitVec.eq_of_toNat_eq
  rw [command_toNat c, command_toNat c', hop, hcount, hwidth]

/-- A decoded command has the fields of the value it was read from (R62 to R64). -/
theorem fields_of_decode {c : Command} {i : Instr} (h : decode c = .ok i) :
    cmdOp c = i.op ∧ cmdCount c = i.count ∧ cmdWidth c = i.bitWidth := by
  obtain ⟨hop, hd⟩ | ⟨hop, hd⟩ | ⟨hop, hd⟩ | ⟨_, hd⟩ := decode_cases c
  case inr.inr.inr =>
    rw [hd] at h
    cases h
  all_goals
    obtain rfl : _ = i := Except.ok.inj (hd.symm.trans h)
    exact ⟨hop, rfl, rfl⟩

/-- Decoding is a left inverse of encoding. -/
theorem decode_encode (i : Instr) : decode (encode i) = .ok i := by
  obtain ⟨hop, hcount, hwidth⟩ := encodedFields i
  obtain ⟨hselw, hpack, hunpack, _⟩ := Machine.decode_of_op (encode i)
  cases i with
  | selw n x => rw [hselw hop, hcount, hwidth]; rfl
  | pack w n => rw [hpack hop, hcount, hwidth]; rfl
  | unpack w n => rw [hunpack hop, hcount, hwidth]; rfl

/-- Settles O1: the word of a command has the command's own `op`, which selects its constructor, and the command's own
fields. -/
theorem decodeOfEncode : Obligations.DecodeOfEncode := fun i _ => decode_encode i

/-- Settles O2: the word of the decoded command has the three fields that the command was read from. -/
theorem encodeOfDecoded : Obligations.EncodeOfDecoded := by
  intro c i h
  obtain ⟨hop, hcount, hwidth⟩ := fields_of_decode h
  obtain ⟨hop', hcount', hwidth'⟩ := encodedFields i
  exact command_ext (hop'.trans hop.symm) (hcount'.trans hcount.symm) (hwidth'.trans hwidth.symm)

/-- Settles O6: the words are evaluated. -/
theorem writtenOutWordsDecode : Obligations.WrittenOutWordsDecode :=
  ⟨rfl, rfl, rfl, rfl, rfl, rfl, rfl, rfl, rfl, rfl, rfl⟩

/-! The header as five bytes (R67, R68): its width, and the base-256 digits of its count. -/

/-- Appending puts the right part below the left one. -/
theorem append_toNat {m k : Nat} (x : BitVec m) (y : BitVec k) : (x ++ y).toNat = x.toNat * 2 ^ k + y.toNat := by
  rw [BitVec.toNat_append, ← Nat.shiftLeft_add_eq_or_of_lt y.isLt, Nat.shiftLeft_eq]

/-- A header's number is made of its two fields (R67). -/
theorem headerOf_toNat (w : BitWidth) (n : Count) : (headerOf w n).toNat = n.toNat * 2 ^ 8 + w.toNat :=
  append_toNat n w

/-- Every header is made of its own two fields (R67). -/
theorem headerOf_fields (h : Header) : headerOf (headerWidth h) (headerCount h) = h := by
  apply BitVec.eq_of_toNat_eq
  rw [headerOf_toNat, headerWidth, headerCount, BitVec.extractLsb'_toNat, BitVec.extractLsb'_toNat,
    Nat.shiftRight_zero, Nat.shiftRight_eq_div_pow]
  omega

/-- Byte `k` of a count is its base-256 digit `k`. -/
theorem countByte_toNat (n : Count) (k : Nat) : (n.extractLsb' k 8).toNat = n.toNat / 2 ^ k % 2 ^ 8 := by
  rw [BitVec.extractLsb'_toNat, Nat.shiftRight_eq_div_pow]

/-- Four bytes in a row are the number whose base-256 digits they are. -/
theorem appendBytes_toNat (b1 b2 b3 b4 : Byte) :
    (b4 ++ b3 ++ b2 ++ b1).toNat = b4.toNat * 2 ^ 24 + b3.toNat * 2 ^ 16 + b2.toNat * 2 ^ 8 + b1.toNat := by
  rw [append_toNat, append_toNat, append_toNat]
  omega

/-- The bytes of a header as numbers (R68). The last one needs no remainder, as a count is below `2^32`. -/
theorem headerBytes_headerOf_toNat (w : BitWidth) (n : Count) :
    (headerBytes (headerOf w n)).map BitVec.toNat =
      [w.toNat, n.toNat % 2 ^ 8, n.toNat / 2 ^ 8 % 2 ^ 8, n.toNat / 2 ^ 16 % 2 ^ 8, n.toNat / 2 ^ 24] := by
  have hlow : n.toNat / 2 ^ 0 = n.toNat := Nat.div_one _
  have hhigh : n.toNat / 2 ^ 24 % 2 ^ 8 = n.toNat / 2 ^ 24 := by omega
  simp only [headerBytes, headerWidth_headerOf, headerCount_headerOf, List.map_cons, List.map_nil, countByte_toNat,
    hlow, hhigh]

/-- A count written as four bytes and put together again is the count. -/
theorem appendBytes_of_count (n : Count) :
    n.extractLsb' 24 8 ++ n.extractLsb' 16 8 ++ n.extractLsb' 8 8 ++ n.extractLsb' 0 8 = n := by
  apply BitVec.eq_of_toNat_eq
  rw [appendBytes_toNat]
  simp only [countByte_toNat]
  omega

/-- Four bytes put together as a count and taken apart again are the bytes. -/
theorem bytes_of_appendBytes (b1 b2 b3 b4 : Byte) :
    (b4 ++ b3 ++ b2 ++ b1).extractLsb' 0 8 = b1 ∧ (b4 ++ b3 ++ b2 ++ b1).extractLsb' 8 8 = b2 ∧
    (b4 ++ b3 ++ b2 ++ b1).extractLsb' 16 8 = b3 ∧ (b4 ++ b3 ++ b2 ++ b1).extractLsb' 24 8 = b4 := by
  refine ⟨?_, ?_, ?_, ?_⟩
  all_goals
    apply BitVec.eq_of_toNat_eq
    rw [countByte_toNat, appendBytes_toNat]
    omega

/-- Reading a header's own five bytes gives it back (log entry 12). -/
theorem headerOfBytes_headerBytes (h : Header) : headerOfBytes (headerBytes h) = some h := by
  rw [headerBytes, headerOfBytes, appendBytes_of_count, headerOf_fields]

/-- Bytes that read as a header are that header's bytes: there are five of them, and each stands in its own place. -/
theorem headerBytes_of_headerOfBytes {bs : List Byte} {h : Header} (hbs : headerOfBytes bs = some h) :
    headerBytes h = bs := by
  unfold headerOfBytes at hbs
  split at hbs
  · next b0 b1 b2 b3 b4 =>
    obtain rfl := Option.some.inj hbs
    obtain ⟨h1, h2, h3, h4⟩ := bytes_of_appendBytes b1 b2 b3 b4
    rw [headerBytes, headerWidth_headerOf, headerCount_headerOf, h1, h2, h3, h4]
  · cases hbs

/-- Settles O7: a header and its five bytes have the same digits, so reading the bytes and writing them are inverse. -/
theorem headerSerialisesToFiveBytes : Obligations.HeaderSerialisesToFiveBytes := by
  refine ⟨fun w n => ⟨headerOf_toNat w n, headerBytes_headerOf_toNat w n⟩,
    fun bs h => ⟨headerBytes_of_headerOfBytes, fun hbs => ?reads⟩, by decide, by decide⟩
  case reads => rw [← hbs, headerOfBytes_headerBytes]

/-! The written form (R72, R73): operands that fit their fields are the fields of the command's word. -/

/-- Operands that do not fit their fields name no command. -/
theorem assemble_of_not_wellFormed {a : Asm} (h : a.wellFormed = false) : a.assemble = none := by
  simp [Asm.assemble, h]

section Operands

variable {w n : Nat}

theorem selw_wellFormed_iff : (Asm.selw n).wellFormed = true ↔ n < 2 ^ 32 := by
  simp [Asm.wellFormed, countFits]

theorem pack_wellFormed_iff : (Asm.pack w n).wellFormed = true ↔ w < 2 ^ 8 ∧ n < 2 ^ 32 := by
  simp [Asm.wellFormed, widthFits, countFits]

theorem unpack_wellFormed_iff : (Asm.unpack w n).wellFormed = true ↔ w < 2 ^ 8 ∧ n < 2 ^ 32 := by
  simp [Asm.wellFormed, widthFits, countFits]

/-- The word of a command whose fields hold the operands `w` and `n`. -/
theorem encode_toNat_of_operands {i : Instr} (hw : w < 2 ^ 8) (hn : n < 2 ^ 32) (hwidth : i.bitWidth = BitVec.ofNat 8 w)
    (hcount : i.count = BitVec.ofNat 32 n) : (encode i).toNat = i.op.toNat * 2 ^ 40 + n * 2 ^ 8 + w := by
  rw [encode_toNat, hwidth, hcount, BitVec.toNat_ofNat, BitVec.toNat_ofNat, Nat.mod_eq_of_lt hw, Nat.mod_eq_of_lt hn]

theorem assemble_selw (hn : n < 2 ^ 32) :
    (Asm.selw n).assemble.map (fun i => (encode i).toNat) = some (n * 2 ^ 8) := by
  rw [Asm.assemble, if_pos (selw_wellFormed_iff.2 hn), Option.map_some,
    encode_toNat_of_operands (w := 0) (by decide) hn rfl rfl]
  simp [Instr.op]

theorem assemble_pack (hw : w < 2 ^ 8) (hn : n < 2 ^ 32) :
    (Asm.pack w n).assemble.map (fun i => (encode i).toNat) = some (2 ^ 40 + n * 2 ^ 8 + w) := by
  rw [Asm.assemble, if_pos (pack_wellFormed_iff.2 ⟨hw, hn⟩), Option.map_some, encode_toNat_of_operands hw hn rfl rfl]
  simp [Instr.op]

theorem assemble_unpack (hw : w < 2 ^ 8) (hn : n < 2 ^ 32) :
    (Asm.unpack w n).assemble.map (fun i => (encode i).toNat) = some (2 * 2 ^ 40 + n * 2 ^ 8 + w) := by
  rw [Asm.assemble, if_pos (unpack_wellFormed_iff.2 ⟨hw, hn⟩), Option.map_some, encode_toNat_of_operands hw hn rfl rfl]
  simp [Instr.op]

end Operands

/-- `PACKA` is two commands, so no one word is its own (R73). -/
theorem assemble_packa (n : Nat) : (Asm.packa n).assemble = none := by
  unfold Asm.assemble
  split <;> rfl

/-- Settles O8: the operands that fit are the fields of the word, and the others fail the form's check. -/
theorem writtenFormAssembles : Obligations.WrittenFormAssembles := by
  intro w n
  refine ⟨assemble_selw, fun hw hn => ⟨assemble_pack hw hn, assemble_unpack hw hn⟩, fun hn => ?selw,
    fun hout => ⟨?pack, ?unpack⟩, assemble_packa n⟩
  all_goals
    apply assemble_of_not_wellFormed
    rw [← Bool.not_eq_true]
  case selw => rw [selw_wellFormed_iff]; omega
  case pack => rw [pack_wellFormed_iff]; omega
  case unpack => rw [unpack_wellFormed_iff]; omega

end Sys2Proof

/-! What a command writes (R33): the access table of spec/10_state.md, first for the command's meaning, then for the step. -/

namespace Sys2Proof.Machine

/-- All that a command may change, by its `op`; what it never changes is what it was read from and what the model carries beside
the seven elements. -/
structure WritesOwnElements (op : BitVec 2) (s t : State) : Prop where
  cmd : t.cmd = s.cmd
  caps : t.caps = s.caps
  drawUnit : t.drawUnit = s.drawUnit
  drawEpoch : t.drawEpoch = s.drawEpoch
  wres : op ≠ 0 → t.wres = s.wres
  packed : op ≠ 1 → t.wrd = s.wrd ∧ t.wlen = s.wlen ∧ t.hdr = s.hdr
  val : op ≠ 2 → t.val = s.val

/-- A raise writes nothing but `STATUS`, so it is within every command's rights. -/
theorem writesOwnElements_raise (op : BitVec 2) (e : Err) (s : State) : WritesOwnElements op s (raise e s) :=
  ⟨rfl, rfl, rfl, rfl, fun _ => rfl, fun _ => ⟨rfl, rfl, rfl⟩, fun _ => rfl⟩

/-- Every command that answers a next state has written its own elements only (R33). -/
theorem writesOwnElements_of_exec {i : Instr} {s t : State} (h : exec i s = .next t) : WritesOwnElements i.op s t := by
  cases i with
  | selw n x =>
    obtain ⟨_, rfl⟩ | ⟨_, _, rfl⟩ := execSelw_next (x := x) h
    · exact writesOwnElements_raise _ _ s
    · exact ⟨rfl, rfl, rfl, rfl, fun hop => absurd rfl hop, fun _ => ⟨rfl, rfl, rfl⟩, fun _ => rfl⟩
  | pack w n =>
    obtain ⟨_, _, rfl⟩ | ⟨_, _, _, rfl⟩ | ⟨_, _, _, rfl⟩ := exec_pack_cases h
    · exact writesOwnElements_raise _ _ s
    · exact writesOwnElements_raise _ _ s
    · exact ⟨rfl, rfl, rfl, rfl, fun _ => rfl, fun hop => absurd rfl hop, fun _ => rfl⟩
  | unpack w n =>
    obtain ⟨hframe, _, _⟩ := unpackFrame s t w n h
    rw [hframe]
    exact ⟨rfl, rfl, rfl, rfl, fun _ => rfl, fun _ => ⟨rfl, rfl, rfl⟩, fun hop => absurd rfl hop⟩

/-- Settles O52: a step is nothing, or one command, whose `op` is that of `CMD`. -/
theorem stepWritesOnlyItsElements : Obligations.StepWritesOnlyItsElements := by
  intro s t h
  obtain ⟨hp, rfl⟩ | ⟨_, i, u, hd, hu, rfl⟩ := step_next h
  case inl => exact ⟨rfl, rfl, rfl, rfl, hp, fun _ => rfl, fun _ => ⟨rfl, rfl, rfl⟩, fun _ => rfl⟩
  case inr =>
    obtain ⟨hcmd, hcaps, hunit, hepoch, hwres, hpacked, hval⟩ := writesOwnElements_of_exec hu
    rw [op_of_decode hd]
    exact ⟨hcmd, hcaps, hunit, hepoch, rfl, hwres, hpacked, hval⟩

end Sys2Proof.Machine

/-! The step and the issue as the meaning of one command (R10, R24, R35, R51). -/

namespace Sys2Proof.Machine

theorem step_of_exec_refused {s : State} {i : Instr} {r : Refusal} (hp : s.pending = true) (hd : decode s.cmd = .ok i)
    (he : exec i s = .refused r) : step s = .refused r := by
  simp [step, fetch, hp, hd, he]

/-- Settles O9: the step is the meaning of the decoded command, and no command has a fault. -/
theorem stepRunsDecodedCommand : Obligations.StepRunsDecodedCommand :=
  fun s i hp _ hd => ⟨fun _ he => step_of_exec_next hp hd he, fun _ he => step_of_exec_refused hp hd he,
    fun r he => absurd he (exec_ne_fault i s r)⟩

/-- Settles O10: the step's first test is whether a command is pending. -/
theorem noCommandNothingRuns : Obligations.NoCommandNothingRuns := by
  intro s hp
  rw [step, if_neg (Bool.eq_false_iff.1 hp)]

/-- Between commands HOST's issue is one ENGINE step at the state that holds the command. -/
theorem hostAct_issue {s : State} (hp : s.pending = false) (c : Command) :
    hostAct (.issue c) s = step (s.issue c) := by
  simp [hostAct, hp]

/-- The issue of a value of `CMD` is the end of the command it decodes to, which leaves `CMD` as it was written. -/
theorem hostAct_issue_of_exec {s t : State} {c : Command} {i : Instr} (hp : s.pending = false)
    (hd : decode c = .ok i) (he : exec i (s.issue c) = .next t) :
    hostAct (.issue c) s = .next t.retire ∧ t.cmd = c :=
  ⟨(hostAct_issue hp c).trans (step_of_exec_next rfl hd he), (writesOwnElements_of_exec he).cmd⟩

/-- Settles O11: the word that HOST writes decodes to the command it is the word of. -/
theorem issueIsOneStep : Obligations.IssueIsOneStep :=
  fun _ _ i hp he => hostAct_issue_of_exec hp (decode_encode i) he

end Sys2Proof.Machine

/-! When a command goes on (R9, R52, R199): a capacity is all that can stop it. -/

namespace Sys2Proof.Machine

theorem goesOn_selw {s : State} {n : Count} (x : BitWidth) (hn : n.toNat ≤ s.caps.val) :
    GoesOn (exec (.selw n x) s) := by
  by_cases hzero : n.toNat = 0
  · exact ⟨raise .invalidInput s, by rw [exec, execSelw, if_neg (Nat.not_lt.2 hn), if_pos hzero]⟩
  · exact ⟨_, execSelw_ok x hzero hn⟩

section Room

variable {s : State} {w : BitWidth} {n : Count} (hn : n.toNat ≤ s.caps.val)
include hn

section Legal

variable (hroom : w.toNat ≤ 64 → wordCount n.toNat w.toNat ≤ s.caps.wrd)
include hroom

/-- Each of PACK's three ends is a next state, and its conditions leave no other. -/
theorem goesOn_pack : GoesOn (exec (.pack w n) s) := by
  by_cases hw : w.toNat ≤ 64
  · by_cases hover : ∃ i < n.toNat, fits (s.readVal i) w.toNat = false
    · exact ⟨_, exec_pack_overflow hw ⟨hn, hroom hw⟩ hover⟩
    · exact ⟨_, exec_pack_ok hw ⟨hn, hroom hw⟩ (by simpa using hover)⟩
  · exact ⟨_, exec_pack_illegalWidth hn (Nat.not_le.1 hw)⟩

/-- Each of UNPACK's three ends is a next state, and its conditions leave no other. -/
theorem goesOn_unpack : GoesOn (exec (.unpack w n) s) := by
  by_cases hw : w.toNat ≤ 64
  · by_cases hlen : s.wlen.toNat = wordCount n.toNat w.toNat
    · exact ⟨_, exec_unpack_ok hw ⟨hn, hroom hw⟩ hlen⟩
    · exact ⟨_, exec_unpack_malformed hw ⟨hn, hroom hw⟩ hlen⟩
  · exact ⟨_, exec_unpack_illegalWidth hn (Nat.not_le.1 hw)⟩

end Legal

/-- At a legal width a word count beyond the capacity is refused before the values or the length are looked at. -/
theorem exec_capacityWrd (hw : w.toNat ≤ 64) (hwc : s.caps.wrd < wordCount n.toNat w.toNat) :
    exec (.pack w n) s = .refused .capacityWrd ∧ exec (.unpack w n) s = .refused .capacityWrd := by
  have hval : ¬ s.caps.val < n.toNat := Nat.not_lt.2 hn
  have hlegal : ¬ widthIllegal w.toNat = true := mt (widthIllegal_iff _).1 (by omega)
  exact ⟨by rw [exec, execPack, if_neg hval, if_neg hlegal, if_pos hwc],
    by rw [exec, execUnpack, if_neg hval, if_neg hlegal, if_pos hwc]⟩

end Room

/-- A count beyond the capacity is refused before anything else is looked at. -/
theorem exec_capacityVal {s : State} {n : Count} (w : BitWidth) (hn : s.caps.val < n.toNat) :
    exec (.selw n w) s = .refused .capacityVal ∧ exec (.pack w n) s = .refused .capacityVal ∧
    exec (.unpack w n) s = .refused .capacityVal := by
  simp only [exec, execSelw, execPack, execUnpack, if_pos hn, and_self]

/-- Settles O53: a count beyond the capacity is tested first, a word count beyond it next, and every other end is a next
state. -/
theorem noCellBeyondTheCapacity : Obligations.NoCellBeyondTheCapacity :=
  fun _ w _ => ⟨exec_capacityVal w, exec_capacityWrd, goesOn_selw w,
    fun hn hroom => ⟨goesOn_pack hn hroom, goesOn_unpack hn hroom⟩⟩

/-- No command writes the values 5, 6 and 7 of `STATUS` (R27, R160). -/
theorem status_le_of_exec {i : Instr} {s t : State} (h : exec i s = .next t) : t.status.toNat ≤ 4 := by
  obtain ⟨e, rfl⟩ | ⟨u, rfl⟩ := exec_next_raise_or_complete h
  · rw [raise_status]
    cases e <;> decide
  · exact Nat.zero_le 4

/-- A command that goes on completes when HOST issues it (R199). -/
theorem issue_completes {s : State} {c : Command} {i : Instr} (hp : s.pending = false) (hd : decode c = .ok i)
    (hgo : GoesOn (exec i (s.issue c))) :
    ∃ t, hostAct (.issue c) s = .next t ∧ t.cmd = c ∧ t.pending = false ∧ t.status.toNat ≤ 4 := by
  obtain ⟨t, he⟩ := hgo
  obtain ⟨hissue, hcmd⟩ := hostAct_issue_of_exec hp hd he
  have hstatus : t.status.toNat ≤ 4 := status_le_of_exec he
  exact ⟨t.retire, hissue, hcmd, rfl, hstatus⟩

/-- Settles O12: each `op` but the reserved one is a command, and with its cells there it goes on. -/
theorem everyIssuedCommandCompletes : Obligations.EveryIssuedCommandCompletes := by
  intro s c hp hop hn hroom
  obtain ⟨_, hd⟩ | ⟨hpack, hd⟩ | ⟨hunpack, hd⟩ | ⟨hreserved, _⟩ := decode_cases c
  case inl => exact issue_completes hp hd (goesOn_selw (s := s.issue c) _ hn)
  case inr.inl =>
    have hroom' := hroom (by rw [hpack]; decide)
    exact issue_completes hp hd (goesOn_pack (s := s.issue c) hn hroom')
  case inr.inr.inl =>
    have hroom' := hroom (by rw [hunpack]; decide)
    exact issue_completes hp hd (goesOn_unpack (s := s.issue c) hn hroom')
  case inr.inr.inr => exact absurd hreserved hop

end Sys2Proof.Machine

/-! Which code each command ends with (R163, R167). -/

namespace Sys2Proof.Machine

theorem selw_status {s t : State} {n : Count} {x : BitWidth} (h : exec (.selw n x) s = .next t) :
    (t.status = 0 ∨ t.status = 4) ∧ (t.status = 4 ↔ n = 0) := by
  obtain ⟨hn, rfl⟩ | ⟨hn, _, rfl⟩ := execSelw_next (x := x) h
  · exact ⟨.inr rfl, iff_of_true rfl (BitVec.toNat_inj.1 hn)⟩
  · exact ⟨.inl rfl, iff_of_false (by simp [statusOk]) (BitVec.toNat_ne_iff_ne.1 hn)⟩

theorem pack_status {s t : State} {w : BitWidth} {n : Count} (h : exec (.pack w n) s = .next t) :
    (t.status = 0 ∨ t.status = 1 ∨ t.status = 3) ∧ (t.status = 3 ↔ 64 < w.toNat) ∧
    (t.status = 1 ↔ w.toNat ≤ 64 ∧ ∃ i < n.toNat, fits (s.readVal i) w.toNat = false) := by
  obtain ⟨_, hw, rfl⟩ | ⟨hw, _, hover, rfl⟩ | ⟨hw, _, hfits, rfl⟩ := exec_pack_cases h
  case inl =>
    exact ⟨.inr (.inr rfl), iff_of_true rfl hw, iff_of_false (by simp [Err.code]) fun hlegal => by omega⟩
  case inr.inl =>
    exact ⟨.inr (.inl rfl), iff_of_false (by simp [Err.code]) (Nat.not_lt.2 hw), iff_of_true rfl ⟨hw, hover⟩⟩
  case inr.inr =>
    have hok : (packResult w n s).status = 0 := rfl
    have hall : ¬ ∃ i < n.toNat, fits (s.readVal i) w.toNat = false := by simpa using hfits
    exact ⟨.inl hok, iff_of_false (by simp [hok]) (Nat.not_lt.2 hw),
      iff_of_false (by simp [hok]) fun hover => hall hover.2⟩

theorem unpack_status {s t : State} {w : BitWidth} {n : Count} (h : exec (.unpack w n) s = .next t) :
    (t.status = 0 ∨ t.status = 2 ∨ t.status = 3) ∧ (t.status = 3 ↔ 64 < w.toNat) ∧
    (t.status = 2 ↔ w.toNat ≤ 64 ∧ s.wlen.toNat ≠ wordCount n.toNat w.toNat) := by
  obtain ⟨_, ⟨hw, rfl⟩ | ⟨hw, _, ⟨hlen, rfl⟩ | ⟨hlen, rfl⟩⟩⟩ := execUnpack_next h
  case inl =>
    exact ⟨.inr (.inr rfl), iff_of_true rfl hw, iff_of_false (by simp [Err.code]) fun hlegal => by omega⟩
  case inr.inl =>
    exact ⟨.inr (.inl rfl), iff_of_false (by simp [Err.code]) (Nat.not_lt.2 hw), iff_of_true rfl ⟨hw, hlen⟩⟩
  case inr.inr =>
    exact ⟨.inl rfl, iff_of_false (by simp [statusOk]) (Nat.not_lt.2 hw),
      iff_of_false (by simp [statusOk]) fun hwrong => hwrong.2 hlen⟩

/-- Settles O50: each end of a command has its code and the conditions at which it is reached, and these exclude each other. -/
theorem eachCommandHasItsErrors : Obligations.EachCommandHasItsErrors :=
  fun _ _ _ _ => ⟨selw_status, pack_status, unpack_status⟩

end Sys2Proof.Machine

/-! The arithmetic of spec/40_common_arithmetic.md: the bit length from both sides, the fit test of a value and of a block, the
word count, and where a field lies. -/

namespace Sys2Proof.Machine

/-- A bit length beyond `k` says that the value is at least `2^k`. -/
theorem lt_bitLength_iff (v : Value) (k : Nat) : k < bitLength v ↔ 2 ^ k ≤ v.toNat := by
  rw [← Nat.not_le, bitLength_le_iff, Nat.not_lt]

/-- The value between two neighbouring powers of two has the exponent of the upper one as its bit length (R80). -/
theorem bitLength_eq_succ {v : Value} {k : Nat} (hlow : 2 ^ k ≤ v.toNat) (hhigh : v.toNat < 2 ^ (k + 1)) :
    bitLength v = k + 1 :=
  Nat.le_antisymm ((bitLength_le_iff v (k + 1)).2 hhigh) ((lt_bitLength_iff v k).2 hlow)

/-- R80's own form for a value that is not 0. -/
theorem bitLength_of_ne_zero {v : Value} (hv : v ≠ 0) : bitLength v = Nat.log2 v.toNat + 1 := if_neg hv

/-- The bit length is what the leading zeros leave of the 64 bits. -/
theorem bitLength_eq_sub_clz (v : Value) : bitLength v = 64 - v.clz.toNat := by
  apply Nat.le_antisymm
  · exact (bitLength_le_iff v _).2 BitVec.toNat_lt_two_pow_sub_clz
  · by_cases hv : v = 0
    · subst hv
      decide
    · have htop : 2 ^ (63 - v.clz.toNat) ≤ v.toNat :=
        BitVec.two_pow_sub_clz_le_toNat_of_ne_zero (by decide) hv
      have hlong := (lt_bitLength_iff v _).2 htop
      omega

/-- The highest set bit of a value that is not 0 is the last one its bit length counts. -/
theorem getLsbD_bitLength_sub_one {v : Value} (hv : v ≠ 0) : v.getLsbD (bitLength v - 1) = true := by
  rw [bitLength_of_ne_zero hv, Nat.add_sub_cancel, BitVec.getLsbD]
  exact Nat.testBit_log2 (BitVec.toNat_ne_iff_ne.2 hv)

/-- No bit from the bit length on is set. -/
theorem getLsbD_of_bitLength_le {v : Value} {k : Nat} (hk : bitLength v ≤ k) : v.getLsbD k = false :=
  Nat.testBit_lt_two_pow ((bitLength_le_iff v k).1 hk)

theorem bitLength_two_pow {k : Nat} (hk : k ≤ 63) : bitLength (BitVec.ofNat 64 (2 ^ k)) = k + 1 := by
  have hlt : 2 ^ k < 2 ^ 64 := Nat.pow_lt_pow_right (by decide) (by omega)
  have hval : (BitVec.ofNat 64 (2 ^ k)).toNat = 2 ^ k := Nat.mod_eq_of_lt hlt
  exact bitLength_eq_succ hval.ge (hval.trans_lt (Nat.pow_lt_pow_right (by decide) (Nat.lt_succ_self k)))

/-- All of the low `k + 1` bits set take exactly those bits. -/
theorem bitLength_two_pow_sub_one {k : Nat} (hk : k ≤ 63) :
    bitLength (BitVec.ofNat 64 (2 ^ (k + 1) - 1)) = k + 1 := by
  have hle : 2 ^ (k + 1) ≤ 2 ^ 64 := Nat.pow_le_pow_right (by decide) (by omega)
  have hpos : 0 < 2 ^ k := Nat.two_pow_pos k
  have hdouble : 2 ^ (k + 1) = 2 ^ k * 2 := Nat.pow_succ 2 k
  have hval : (BitVec.ofNat 64 (2 ^ (k + 1) - 1)).toNat = 2 ^ (k + 1) - 1 := Nat.mod_eq_of_lt (by omega)
  exact bitLength_eq_succ (by omega) (by omega)

/-- Settles O39: to be at most `k` bits long is to be below `2^k`, which pins the bit length between the powers of two. -/
theorem bitLengthIsLeastWidth : Obligations.BitLengthIsLeastWidth := by
  refine ⟨bitLength_le_iff, fun v => ⟨bitLength_le_64 v, bitLength_eq_sub_clz v,
    fun hv => ⟨bitLength_of_ne_zero hv, getLsbD_bitLength_sub_one hv⟩, fun _ => getLsbD_of_bitLength_le⟩,
    bitLength_zero, fun k hk hk' => ?allOnes, fun _ => bitLength_two_pow⟩
  case allOnes =>
    obtain ⟨j, rfl⟩ := Nat.exists_eq_add_of_le' hk
    exact bitLength_two_pow_sub_one (by omega)

/-- A value fits a legal width exactly when it is no longer than it (R85). -/
theorem fits_iff_bitLength_le {v : Value} {w : Nat} (hw : w ≤ 64) : fits v w = true ↔ bitLength v ≤ w := by
  rw [fits_iff hw, bitLength_le_iff]

/-- A value fits a legal width exactly when no bit is left above it; the full width, at which a shift by the width would be
one by the word's own size, is a case of its own (R85). -/
theorem fits_iff_shiftRight {v : Value} {w : Nat} (hw : w ≤ 64) :
    fits v w = true ↔ w = 64 ∨ v.toNat >>> w = 0 := by
  have hshift : v.toNat >>> w = 0 ↔ v.toNat < 2 ^ w := by
    rw [Nat.shiftRight_eq_div_pow, Nat.div_eq_zero_iff_lt (Nat.two_pow_pos w)]
  rw [hshift, fits_iff hw]
  refine ⟨.inr, fun h => ?_⟩
  obtain rfl | hlt := h
  · exact v.isLt
  · exact hlt

/-- A block fits a legal width exactly when its maximum is no longer than it (R85, R92). -/
theorem forall_fits_iff (s : State) (n : Nat) {w : Nat} (hw : w ≤ 64) :
    (∀ i < n, fits (s.readVal i) w = true) ↔ bitLength (blockMax s n) ≤ w := by
  simp only [fits_iff hw, bitLength_le_iff, blockMax_lt_iff]

/-- Settles O40: each form of the test is a comparison with `2^W`, and a block is below it when its maximum is. -/
theorem blockFitsIffMaximumFits : Obligations.BlockFitsIffMaximumFits := by
  refine ⟨fun v w hw => ⟨fits_iff hw, fits_iff_bitLength_le hw, fits_iff_shiftRight hw⟩,
    fun v => ⟨fits_full_width v, fits_zero_width v⟩, allFit_iff, fun s w n hw _ => ?maximum⟩
  case maximum => rw [allFit_iff, forall_fits_iff s n hw, fits_iff_bitLength_le hw]

/-- A block has no word exactly when it has no bit (R83). -/
theorem wordCount_eq_zero_iff (n w : Nat) : wordCount n w = 0 ↔ n = 0 ∨ w = 0 := by
  have hfirst := lt_wordCount_iff n w 0
  rw [← Nat.mul_eq_zero]
  omega

/-- Neither the cursor nor the padded bit count of a block of the encoding's size needs 38 bits (R84). -/
theorem cursor_bounds {n i w : Nat} (hn : n ≤ 2 ^ 32 - 1) (hw : w ≤ 64) (hi : i < n) :
    bitCursor i w < 2 ^ 38 ∧ n * w + 63 < 2 ^ 38 := by
  have hbits : n * w ≤ (2 ^ 32 - 1) * 64 := Nat.mul_le_mul hn hw
  have hend := field_end_le w hi
  rw [bitCursor]
  omega

/-- Settles O42: the word count is zero, full and bounded as the number of bits says. -/
theorem wordCountFacts : Obligations.WordCountFacts :=
  ⟨fun n w hw => ⟨wordCount_eq_zero_iff n w, wordCount_le hw⟩, wordCount_full_width, fun _ _ _ => cursor_bounds,
    by decide, by decide, by decide, by decide, by decide, by decide⟩

/-- Every bit of a field lies in its first word, or, if it straddles, in the next (R46). -/
theorem field_bit_word (i : Nat) {w k : Nat} (hw : w ≤ 64) (hk : k < w) :
    (i * w + k) / 64 = wordIndex i w ∨ (straddles i w = true ∧ (i * w + k) / 64 = wordIndex i w + 1) := by
  have hcursor := cursor_eq i w
  have hoff := bitOffset_lt i w
  rw [straddles_iff]
  omega

/-- A straddling field begins within its first word and ends in the next (R46, R87). -/
theorem straddling_field {i w : Nat} (hw : w ≤ 64) (hs : straddles i w = true) :
    1 ≤ bitOffset i w ∧ wordIndex i w + 1 = (i * w + w - 1) / 64 := by
  have hcursor := cursor_eq i w
  have hoff := bitOffset_lt i w
  rw [straddles_iff] at hs
  omega

/-- Settles O43: the cursor is the word index and the offset, and the field's end lies within the block. -/
theorem fieldStaysInItsWords : Obligations.FieldStaysInItsWords := by
  intro i n w hw hi
  have hoff := bitOffset_lt i w
  refine ⟨by omega, by omega, cursor_eq i w, fun k hk => field_bit_word i hw hk, wordIndex_lt hi, fun hs => ?second,
    straddles_iff i w⟩
  case second =>
    obtain ⟨hstart, hlast⟩ := straddling_field hw hs
    exact ⟨hstart, hlast, wordIndex_succ_lt hi hs⟩

/-- Settles O44: the two laws of each memory, and that neither memory is part of the other. -/
theorem cellReadsAsLastWritten : Obligations.CellReadsAsLastWritten :=
  fun s i v j => ⟨s.writeVal_readVal i v j, s.writeWrd_readWrd i v j, s.writeVal_readWrd i v j, s.writeWrd_readVal i v j⟩

end Sys2Proof.Machine

/-! The selected width (R103, R104): it is the bit length of the block's maximum, which fits the block and is the least legal
width that does. -/

namespace Sys2Proof.Machine

/-- `WRES` is wide enough for every bit length (R26, R80). -/
theorem ofNat_bitLength_toNat (v : Value) : (BitVec.ofNat 8 (bitLength v)).toNat = bitLength v := by
  have hlen := bitLength_le_64 v
  exact Nat.mod_eq_of_lt (by omega)

/-- One bit less than the block's maximum needs is too little for one of its values. -/
theorem exists_not_fits_below (s : State) {n : Nat} (hn : n ≠ 0) (hlen : bitLength (blockMax s n) ≠ 0) :
    ∃ i < n, 2 ^ (bitLength (blockMax s n) - 1) ≤ (s.readVal i).toNat ∧
      fits (s.readVal i) (bitLength (blockMax s n) - 1) = false := by
  have h64 := bitLength_le_64 (blockMax s n)
  obtain ⟨i, hi, hmax⟩ := blockMax_mem s hn
  have hlow : 2 ^ (bitLength (blockMax s n) - 1) ≤ (blockMax s n).toNat := (lt_bitLength_iff _ _).1 (by omega)
  refine ⟨i, hi, hmax ▸ hlow, ?_⟩
  rw [hmax, ← Bool.not_eq_true, fits_iff (by omega)]
  exact Nat.not_lt.2 hlow

/-- Settles O16: every value is within the maximum's bit length, and the maximum itself needs all of it. -/
theorem selwIsTightMinimum : Obligations.SelwIsTightMinimum := by
  intro s n x hn hc
  have hwres := ofNat_bitLength_toNat (blockMax s n.toNat)
  have h64 := bitLength_le_64 (blockMax s n.toNat)
  refine ⟨_, exec_selw_nonempty x hn hc, rfl, ?_⟩
  dsimp only
  rw [hwres]
  have hfits := (forall_fits_iff s n.toNat h64).2 le_rfl
  refine ⟨h64, fun i hi => ⟨(fits_iff h64).1 (hfits i hi), hfits i hi⟩, ?tight⟩
  case tight =>
    exact or_iff_not_imp_left.2 fun hlen => exists_not_fits_below s (BitVec.toNat_ne_iff_ne.2 hn) hlen

/-- Settles O48: SELW leaves the block and the capacities, and a width at least the selected one is at least as long as the
block's maximum. -/
theorem selectedWidthAlwaysPacks : Obligations.SelectedWidthAlwaysPacks := by
  intro s t n x w h hok hle hw hwc
  obtain ⟨_, rfl⟩ | ⟨_, hn, rfl⟩ := execSelw_next (x := x) h
  case inl => exact absurd hok (raise_status_ne_zero _ s)
  case inr =>
    rw [complete_wres, State.setWres_wres, ofNat_bitLength_toNat] at hle
    have hfits := (forall_fits_iff s n.toNat hw).2 hle
    exact ⟨_, exec_pack_ok (s := complete (s.setWres _)) hw ⟨hn, hwc⟩ hfits, rfl⟩

end Sys2Proof.Machine

/-! The closed forms (R115, R135): a word is a slice of the block's number, a value a slice of the buffer's. -/

namespace Sys2Proof.Machine

/-- A number is a slice of another one when its bits are those from the slice's start on, up to its length. -/
theorem eq_slice_of_testBit {x y start len : Nat}
    (h : ∀ b, x.testBit b = (decide (b < len) && y.testBit (start + b))) : x = y / 2 ^ start % 2 ^ len := by
  apply Nat.eq_of_testBit_eq
  intro b
  rw [h b, Nat.testBit_mod_two_pow, Nat.testBit_div_two_pow, Nat.add_comm]

/-- PACK's word `j` is the block's number from bit `64 * j` on (R115). -/
theorem packResult_readWrd_toNat {w : BitWidth} {n : Count} {s : State} (hw : w.toNat ≤ 64)
    (hfits : ∀ i < n.toNat, fits (s.readVal i) w.toNat = true) {j : Nat} (hj : j < wordCount n.toNat w.toNat) :
    ((packResult w n s).readWrd j).toNat = blockNumber s w.toNat n.toNat / 2 ^ (64 * j) % 2 ^ 64 := by
  apply eq_slice_of_testBit
  intro b
  rw [BitVec.testBit_toNat]
  by_cases hb : b < 64
  · rw [packResult_bit hw hfits hj hb, decide_eq_true hb, Bool.true_and]
  · rw [BitVec.getLsbD_of_ge _ _ (Nat.not_lt.1 hb), decide_eq_false hb, Bool.false_and]

/-- PACK leaves every word beyond its own as it was (R117). -/
theorem packResult_readWrd_of_ge {w : BitWidth} {n : Count} {s : State} {j : Nat}
    (hj : wordCount n.toNat w.toNat ≤ j) : (packResult w n s).readWrd j = s.readWrd j :=
  congrArg (·.getD (Config.unspecWrd s.drawUnit s.drawEpoch j)) (packWords_read? _ _ s hj)

/-- Settles O18: the words are the block's number cut into 64 bits each, and PACK's end changes its outputs alone. -/
theorem packLeavesClosedForm : Obligations.PackLeavesClosedForm :=
  fun s w n hw hroom hfits => ⟨packResult w n s, exec_pack_ok hw hroom hfits, blockNumber_lt hw hfits,
    fun _ => packResult_readWrd_toNat hw hfits, fun _ => packResult_readWrd_of_ge, rfl⟩

/-- UNPACK's value `i` is the buffer's number from bit `i * w` on (R135): each of its bits lies in the block's words. -/
theorem unpackValue_toNat {w n : Nat} (hw : w ≤ 64) (s : State) {i : Nat} (hi : i < n) :
    (unpackValue s w i).toNat = bufferNumber s (wordCount n w) / 2 ^ (i * w) % 2 ^ w := by
  apply eq_slice_of_testBit
  intro k
  rw [BitVec.testBit_toNat, unpackValue_bit hw]
  by_cases hk : k < w
  · have hend := field_end_le w hi
    have hword := (lt_wordCount_iff n w ((i * w + k) / 64)).2 (by omega)
    rw [bufferNumber_testBit_of_lt s (by omega)]
  · rw [decide_eq_false hk, Bool.false_and, Bool.false_and]

/-- UNPACK's end writes `VAL` and `STATUS` alone. -/
theorem complete_unpackValues_eq (w n : Nat) (s : State) :
    complete (unpackValues w n s) = { s with val := (unpackValues w n s).val, status := 0 } :=
  congrArg complete (OnlyVal.unpackValues w n s)

/-- Settles O29: each value is its slice of the buffer's number, and UNPACK's end changes its outputs alone. -/
theorem unpackLeavesClosedForm : Obligations.UnpackLeavesClosedForm := by
  intro s w n hw hroom hlen
  refine ⟨_, exec_unpack_ok hw hroom hlen, fun i hi => ?slice, fun i hi => ?beyond, complete_unpackValues_eq _ _ s⟩
  case slice => rw [complete_unpackValues_readVal _ s hi, unpackValue_toNat hw s hi]
  case beyond => rw [complete_readVal, unpackValues_readVal, if_neg (Nat.not_lt.2 hi)]

/-- At width 0 every value is 0, and no word is read for it (R136). -/
theorem unpackValue_zero_width (s : State) (i : Nat) : unpackValue s 0 i = 0 := if_pos rfl

/-- At width 0 it makes no difference what `WRD` holds (R136). -/
theorem unpackValues_zero_width (s : State) (m : Memory) (k : Nat) :
    unpackValues 0 k { s with wrd := m } = { unpackValues 0 k s with wrd := m } := by
  induction k with
  | zero => rfl
  | succ k ih =>
    rw [unpackValues, unpackValues, ih, unpackValue_zero_width, unpackValue_zero_width]
    rfl

/-- Settles O33: at width 0 the word count is 0, so only the length 0 passes, and no value is read from a word. -/
theorem unpackAtWidthZero : Obligations.UnpackAtWidthZero := by
  intro s n hn
  have hcount : wordCount n.toNat (0 : BitWidth).toNat = 0 := wordCount_zero_width n.toNat
  have hroom : s.HasRoom n.toNat (0 : BitWidth).toNat := ⟨hn, hcount ▸ Nat.zero_le _⟩
  have hlen : s.wlen.toNat = wordCount n.toNat (0 : BitWidth).toNat ↔ s.wlen = 0 := by
    rw [hcount]
    exact BitVec.toNat_inj (y := 0)
  refine ⟨fun hzero => ⟨_, exec_unpack_ok (Nat.zero_le 64) hroom (hlen.2 hzero), rfl, fun i hi => ?value,
    fun m => ?words⟩, fun hne => exec_unpack_malformed (Nat.zero_le 64) hroom (mt hlen.1 hne)⟩
  case value => exact (complete_unpackValues_readVal 0 s hi).trans (unpackValue_zero_width s i)
  case words =>
    have hexec := exec_unpack_ok (w := 0) (s := { s with wrd := m }) (Nat.zero_le 64) hroom (hlen.2 hzero)
    have hend := congrArg complete (unpackValues_zero_width s m n.toNat)
    exact hexec.trans (congrArg Host.Outcome.next hend)

end Sys2Proof.Machine

/-! The reverse law (R153): UNPACK and then PACK put every bit of the block back where it was, and clear the others. -/

namespace Sys2Proof.Machine

/-- Every bit below the end of the block is a bit of one of its fields. -/
theorem exists_field_bit {n w p : Nat} (hp : p < n * w) : ∃ i k, i < n ∧ k < w ∧ p = i * w + k := by
  have hw : 0 < w := Nat.pos_of_mul_pos_left (Nat.zero_lt_of_lt hp)
  exact ⟨p / w, p % w, (Nat.div_lt_iff_lt_mul hw).2 hp, Nat.mod_lt p hw, (Nat.div_add_mod' p w).symm⟩

/-- UNPACK leaves the capacities. -/
theorem hasRoom_complete_unpackValues {s : State} {w n : Nat} (hroom : s.HasRoom n w) :
    (complete (unpackValues w n s)).HasRoom n w := by
  rwa [State.HasRoom, complete_caps, unpackValues_caps]

section Repack

variable {s : State} {w : BitWidth} {n : Count} (hw : w.toNat ≤ 64)
include hw

theorem fits_complete_unpackValues :
    ∀ i < n.toNat, fits ((complete (unpackValues w.toNat n.toNat s)).readVal i) w.toNat = true := by
  intro i hi
  rw [complete_unpackValues_readVal _ s hi]
  exact unpackValue_fits hw s i

/-- Below the end of the block the words packed again hold the bits that were unpacked. -/
theorem bufferBit_repack_block {p : Nat} (hp : p < n.toNat * w.toNat) :
    bufferBit (packResult w n (complete (unpackValues w.toNat n.toNat s))) p = bufferBit s p := by
  have hfits := fits_complete_unpackValues (s := s) (n := n) hw
  rw [bufferBit_packResult hw hfits hp]
  obtain ⟨i, k, hi, hk, rfl⟩ := exists_field_bit hp
  rw [blockNumber_testBit hw hfits hi hk, complete_unpackValues_readVal _ s hi, unpackValue_bit hw,
    decide_eq_true hk, Bool.true_and]

variable (hroom : s.HasRoom n.toNat w.toNat)
include hroom

/-- The unpacked block fits and has room, so PACK completes. -/
theorem exec_repack : exec (.pack w n) (complete (unpackValues w.toNat n.toNat s)) =
    .next (packResult w n (complete (unpackValues w.toNat n.toNat s))) :=
  exec_pack_ok hw (hasRoom_complete_unpackValues hroom) (fits_complete_unpackValues hw)

/-- Every bit of the words packed again: the unpacked one, or, in the padding, 0 (R114, R153). -/
theorem bufferBit_repack {p : Nat} (hp : p < 64 * wordCount n.toNat w.toNat) :
    bufferBit (packResult w n (complete (unpackValues w.toNat n.toNat s))) p =
      if p < n.toNat * w.toNat then bufferBit s p else false := by
  split
  · next hblock => exact bufferBit_repack_block hw hblock
  · next hpad =>
    have hroom' := hasRoom_complete_unpackValues hroom
    obtain ⟨u, hpack, _, hzero⟩ := packZeroesPadding _ w n hw hroom' (fits_complete_unpackValues hw)
    obtain rfl := Host.Outcome.next.inj ((exec_repack hw hroom).symm.trans hpack)
    exact (hzero p (Nat.not_lt.1 hpad) hp).1

end Repack

/-- States agree in their first `k` words exactly when they agree in the buffer's bits there. -/
theorem readWrd_eq_iff_bufferBit (s u : State) (k : Nat) :
    (∀ j < k, u.readWrd j = s.readWrd j) ↔ ∀ p < 64 * k, bufferBit u p = bufferBit s p := by
  refine ⟨fun h p hp => ?_, fun h j hj => BitVec.eq_of_getLsbD_eq fun b hb => ?_⟩
  · rw [bufferBit, bufferBit, h (p / 64) (by omega)]
  · rw [← bufferBit_of_word u j hb, ← bufferBit_of_word s j hb, h (j * 64 + b) (by omega)]

/-- Settles O46: every bit of the words packed again is known, so they are the words unpacked when the padding was zero. -/
theorem unpackThenPackClearsPadding : Obligations.UnpackThenPackClearsPadding := by
  intro s w n hw hroom hlen
  refine ⟨_, _, exec_unpack_ok hw hroom hlen, exec_repack hw hroom, rfl, rfl, ?wlen,
    fun _ => bufferBit_repack hw hroom, ?words⟩
  case wlen => exact BitVec.eq_of_toNat_eq ((packResult_wlen_toNat hw n _).trans hlen.symm)
  case words =>
    rw [readWrd_eq_iff_bufferBit]
    refine ⟨fun hsame p hpad hp => ?_, fun hzero p hp => ?_⟩
    · rw [← hsame p hp, bufferBit_repack hw hroom hp, if_neg (Nat.not_lt.2 hpad)]
    · rw [bufferBit_repack hw hroom hp]
      split
      · rfl
      · next hpad => exact (hzero p (Nat.not_lt.1 hpad) hp).symm

end Sys2Proof.Machine

/-! `PACKA` (R73, R150): SELW and then PACK at the width it selected, each issued by HOST between commands. -/

namespace Sys2Proof.Machine

theorem actsOnRegisters_issue (c : Command) : ActsOnRegisters (·.issue c) :=
  ⟨fun _ _ => rfl, fun _ _ => rfl, fun _ _ _ => rfl, fun _ _ _ => rfl⟩

/-- The width that SELW selects for the first `n` values (R100). -/
def selectedWidth (s : State) (n : Nat) : BitWidth := BitVec.ofNat 8 (bitLength (blockMax s n))

theorem selectedWidth_toNat (s : State) (n : Nat) : (selectedWidth s n).toNat = bitLength (blockMax s n) :=
  ofNat_bitLength_toNat _

/-- A legal width fits the block exactly when it is at least the selected one (R103, R104). -/
theorem forall_fits_iff_selectedWidth_le (s : State) (n : Nat) {w : Nat} (hw : w ≤ 64) :
    (∀ i < n, fits (s.readVal i) w = true) ↔ (selectedWidth s n).toNat ≤ w := by
  rw [forall_fits_iff s n hw, selectedWidth_toNat]

theorem selectedWidth_le_64 (s : State) (n : Nat) : (selectedWidth s n).toNat ≤ 64 :=
  (selectedWidth_toNat s n).trans_le (bitLength_le_64 _)

/-- The state between the two commands of `PACKA`: SELW has written `CMD`, `WRES` and `STATUS`. -/
def afterSelw (n : Count) (s : State) : State :=
  (complete ((s.issue (encode (.selw n 0))).setWres (selectedWidth s n.toNat))).retire

/-- The state at which `PACKA`'s second command runs. -/
def issuedPack (n : Count) (s : State) : State := (afterSelw n s).issue (encode (.pack (selectedWidth s n.toNat) n))

section Packa

variable {s : State} {n : Count} (hp : s.pending = false)
include hp

/-- The issue of an empty block's SELW ends in `InvalidInput` (R101). -/
theorem hostAct_issue_selw_zero : hostAct (.issue (encode (.selw 0 0))) s =
    .next (raise .invalidInput (s.issue (encode (.selw 0 0)))).retire :=
  (hostAct_issue_of_exec hp (decode_encode _) (exec_selw_zero 0 _)).1

/-- An error of SELW ends `PACKA`, and SELW has changed no more than `CMD` and `STATUS`. -/
theorem packa_zero : packa 0 s = .next { s with cmd := encode (.selw 0 0), status := 4 } := by
  have hend : (raise .invalidInput (s.issue (encode (.selw 0 0)))).retire =
      { s with cmd := encode (.selw 0 0), status := 4, pending := s.pending } := by
    rw [hp]
    rfl
  have herr : (4 : BitVec 3) ≠ statusOk := by decide
  rw [packa, hostAct_issue_selw_zero hp, hend]
  exact if_neg herr

variable (hn : n ≠ 0) (hval : n.toNat ≤ s.caps.val)
include hn hval

theorem hostAct_issue_selw : hostAct (.issue (encode (.selw n 0))) s = .next (afterSelw n s) := by
  have hmax : blockMax (s.issue (encode (.selw n 0))) n.toNat = blockMax s n.toNat :=
    (actsOnRegisters_issue _).blockMax s n.toNat
  have hselw : exec (.selw n 0) (s.issue (encode (.selw n 0))) =
      .next (complete ((s.issue (encode (.selw n 0))).setWres (selectedWidth s n.toNat))) := by
    rw [selectedWidth, ← hmax]
    exact execSelw_ok 0 (BitVec.toNat_ne_iff_ne.2 hn) hval
  exact (hostAct_issue_of_exec hp (decode_encode _) hselw).1

variable (hwrd : n.toNat ≤ s.caps.wrd)
include hwrd

/-- The block fits the selected width, and its words are no more than its values, so PACK completes. -/
theorem packa_of_ne_zero :
    packa n s = .next (packResult (selectedWidth s n.toNat) n (issuedPack n s)).retire := by
  have hw := selectedWidth_le_64 s n.toNat
  have hroom : (issuedPack n s).HasRoom n.toNat (selectedWidth s n.toNat).toNat :=
    ⟨hval, (wordCount_le hw).trans hwrd⟩
  have hfits := (forall_fits_iff_selectedWidth_le s n.toNat hw).2 le_rfl
  have hpack := exec_pack_ok (s := issuedPack n s) hw hroom hfits
  rw [packa, hostAct_issue_selw hp hn hval]
  exact (hostAct_issue_of_exec (s := afterSelw n s) rfl (decode_encode _) hpack).1

end Packa

/-- A wider field never needs fewer words (R83). -/
theorem wordCount_mono (n : Nat) {w w' : Nat} (h : w ≤ w') : wordCount n w ≤ wordCount n w' := by
  have hbits : n * w ≤ n * w' := Nat.mul_le_mul_left n h
  rw [wordCount_eq, wordCount_eq]
  omega

/-- Settles O47: SELW selects the least legal width that fits the block, PACK packs at it, and the word count grows with the
width. -/
theorem packaPacksAtTheMinimum : Obligations.PackaPacksAtTheMinimum := by
  intro s n hp hval hwrd
  refine ⟨fun hzero => hzero ▸ packa_zero hp, fun hn => ?nonempty⟩
  have hw := selectedWidth_le_64 s n.toNat
  have hfits := (forall_fits_iff_selectedWidth_le s n.toNat hw).2 le_rfl
  have hblock : blockNumber (issuedPack n s) (selectedWidth s n.toNat).toNat n.toNat =
      blockNumber s (selectedWidth s n.toNat).toNat n.toNat := blockNumber_congr _ fun _ _ => rfl
  have hlen := packResult_wlen_toNat hw n (issuedPack n s)
  refine ⟨_, blockMax s n.toNat, packa_of_ne_zero hp hn hval hwrd, fun _ => readVal_le_blockMax s,
    blockMax_mem s (BitVec.toNat_ne_iff_ne.2 hn), selectedWidth_toNat s n.toNat, hw, hfits, hlen, fun j hj => ?word,
    fun _ hj => packResult_readWrd_of_ge (s := issuedPack n s) hj, ?frame, fun w hw' hfits' => ?minimum⟩
  case word => exact hblock ▸ packResult_readWrd_toNat (s := issuedPack n s) hw hfits hj
  case frame =>
    cases s
    cases hp
    rfl
  case minimum =>
    have hle := (forall_fits_iff_selectedWidth_le s n.toNat hw').1 hfits'
    exact hlen.trans_le (wordCount_mono n.toNat hle)

end Sys2Proof.Machine

/-! Where a run on a system stops (R180, R201; log entry 14): at an action at which its instance, run alone, stops as well. -/

namespace Sys2Proof.Machine

/-- An action of a system that goes on takes each instance along its own actions: its first one is done, or none of its own
is. -/
theorem hostRun_ownActions_cons {k : Nat} {v : Fin k} {a : HostAction} {sys mid : System k}
    (h : System.act v a sys = .next mid) (rest : List (Fin k × HostAction)) (u : Fin k) :
    hostRun (ownActions u ((v, a) :: rest)) (sys.get u) = hostRun (ownActions u rest) (mid.get u) := by
  obtain ⟨hown, hothers⟩ := System.act_next h
  by_cases hv : v = u
  · subst hv
    rw [ownActions_cons_same, hostRun_cons_of_next hown]
  · rw [ownActions_cons_ne a rest hv, hothers u hv]

/-- An action of a system faults when the instance's own action does. -/
theorem hostAct_of_act_fault {k : Nat} {u : Fin k} {a : HostAction} {sys : System k} {r : Fault}
    (h : System.act u a sys = .fault r) : hostAct a (sys.get u) = .fault r := by
  rw [System.act] at h
  split at h
  · cases h
  · next hact =>
    cases h
    exact hact
  · cases h

/-- An action of a system is refused when the instance's own action is. -/
theorem hostAct_of_act_refused {k : Nat} {u : Fin k} {a : HostAction} {sys : System k} {r : Refusal}
    (h : System.act u a sys = .refused r) : hostAct a (sys.get u) = .refused r := by
  rw [System.act] at h
  split at h
  · cases h
  · cases h
  · next hact =>
    cases h
    exact hact

/-- A run on a system ends in a next system, or it stops as one of its instances, run alone, stops. -/
theorem System.run_next_or_stops {k : Nat} (acts : List (Fin k × HostAction)) (sys : System k) :
    (∃ sys', System.run acts sys = .next sys') ∨
    (∃ r u, System.run acts sys = .fault r ∧ hostRun (ownActions u acts) (sys.get u) = .fault r) ∨
    (∃ r u, System.run acts sys = .refused r ∧ hostRun (ownActions u acts) (sys.get u) = .refused r) := by
  induction acts generalizing sys with
  | nil => exact .inl ⟨sys, rfl⟩
  | cons p rest ih =>
    obtain ⟨v, a⟩ := p
    cases hact : System.act v a sys with
    | next mid =>
      have hrun : System.run ((v, a) :: rest) sys = System.run rest mid := by rw [System.run, hact]
      simp only [hrun, hostRun_ownActions_cons hact]
      exact ih mid
    | fault r =>
      refine .inr (.inl ⟨r, v, by rw [System.run, hact], ?_⟩)
      rw [ownActions_cons_same, hostRun, hostAct_of_act_fault hact]
    | refused r =>
      refine .inr (.inr ⟨r, v, by rw [System.run, hact], ?_⟩)
      rw [ownActions_cons_same, hostRun, hostAct_of_act_refused hact]

/-- Settles O60: the three ways in which a run can end exclude each other, and an instance whose own actions go on does not
stop. -/
theorem runStopsOnlyWhereAnInstanceStops : Obligations.RunStopsOnlyWhereAnInstanceStops := by
  intro k acts sys
  obtain ⟨sys', hrun⟩ | ⟨r, u, hrun, hown⟩ | ⟨r, u, hrun, hown⟩ := System.run_next_or_stops acts sys
  case inl =>
    rw [hrun]
    exact ⟨nofun, nofun, fun _ => ⟨sys', rfl⟩⟩
  case inr.inl =>
    rw [hrun]
    refine ⟨fun r' hr => ⟨u, Host.Outcome.fault.inj hr ▸ hown⟩, nofun, fun hgo => ?goes⟩
    case goes =>
      obtain ⟨t, ht⟩ := hgo u
      cases hown.symm.trans ht
  case inr.inr =>
    rw [hrun]
    refine ⟨nofun, fun r' hr => ⟨u, Host.Outcome.refused.inj hr ▸ hown⟩, fun hgo => ?goes⟩
    case goes =>
      obtain ⟨t, ht⟩ := hgo u
      cases hown.symm.trans ht

end Sys2Proof.Machine
